-- ==== Sys2Proof/Word.lean ====
section
/-! DEFINITION. The word types of the crusty CHIP-8 core (00_scope.md R5, R8; 10_state.md R20). -/

namespace Sys2Proof

/-- One memory cell or one V register: 8 bits, unsigned (10_state.md R20, R21). -/
abbrev Byte := BitVec 8

/-- An instruction word, PC, I or a stack slot: 16 bits, unsigned (10_state.md R23-R25). -/
abbrev Word := BitVec 16

/-- The number of a V register, 0 to 15 (10_state.md R21). -/
abbrev Reg := Fin 16

/-- The 16 key flags; flag k is key k (10_state.md R27). -/
abbrev Keys := Vector Bool 16

/-- 32 rows of 64 one-bit pixels; `disp[r][c]` is row r, column c (10_state.md R29). -/
abbrev Display := Vector (Vector Bool 64) 32

end Sys2Proof
end

