-- ==== Sys2Proof/Syntax.lean ====
section
/-! DEFINITION. The instructions: one constructor per row of spec/opcode_table.json (30_encoding.md R75),
the unknown-opcode row among them (R77). Register operands are register numbers, `kk` the immediate byte,
`nnn` the 12-bit address, `n` the sprite height (R71, R73). -/

namespace Sys2Proof

inductive Instr where
  /-- 00E0 CLS (44_display.md R171) -/
  | cls
  /-- 00EE RET (41_control_flow.md R111) -/
  | ret
  /-- 1nnn JP nnn (41 R112) -/
  | jp (nnn : BitVec 12)
  /-- 2nnn CALL nnn (41 R113) -/
  | call (nnn : BitVec 12)
  /-- 3xkk SE Vx, kk (41 R114) -/
  | seImm (x : Reg) (kk : Byte)
  /-- 4xkk SNE Vx, kk (41 R115) -/
  | sneImm (x : Reg) (kk : Byte)
  /-- 5xy0 SE Vx, Vy (41 R116) -/
  | seReg (x y : Reg)
  /-- 6xkk LD Vx, kk (42_load_alu.md R130) -/
  | ldImm (x : Reg) (kk : Byte)
  /-- 7xkk ADD Vx, kk (42 R131) -/
  | addImm (x : Reg) (kk : Byte)
  /-- 8xy0 LD Vx, Vy (42 R132) -/
  | ldReg (x y : Reg)
  /-- 8xy1 OR Vx, Vy (42 R133) -/
  | orReg (x y : Reg)
  /-- 8xy2 AND Vx, Vy (42 R134) -/
  | andReg (x y : Reg)
  /-- 8xy3 XOR Vx, Vy (42 R135) -/
  | xorReg (x y : Reg)
  /-- 8xy4 ADD Vx, Vy (42 R137) -/
  | addReg (x y : Reg)
  /-- 8xy5 SUB Vx, Vy (42 R138) -/
  | sub (x y : Reg)
  /-- 8xy6 SHR Vx (42 R139). The y field is decoded and not used (30 R79); it is kept here so that no
  bit of the word is lost (log 20). -/
  | shr (x y : Reg)
  /-- 8xy7 SUBN Vx, Vy (42 R140) -/
  | subn (x y : Reg)
  /-- 8xyE SHL Vx (42 R141). The y field as for SHR. -/
  | shl (x y : Reg)
  /-- 9xy0 SNE Vx, Vy (41 R117) -/
  | sneReg (x y : Reg)
  /-- Annn LD I, nnn (43_index_memory.md R150) -/
  | ldI (nnn : BitVec 12)
  /-- Bnnn JP V0, nnn (41 R118) -/
  | jpV0 (nnn : BitVec 12)
  /-- Cxkk RND Vx, kk (42 R142) -/
  | rnd (x : Reg) (kk : Byte)
  /-- Dxyn DRW Vx, Vy, n (44 R173) -/
  | drw (x y : Reg) (n : BitVec 4)
  /-- Ex9E SKP Vx (45_keys_timers.md R186) -/
  | skp (x : Reg)
  /-- ExA1 SKNP Vx (45 R187) -/
  | sknp (x : Reg)
  /-- Fx07 LD Vx, DT (45 R188) -/
  | ldVxDt (x : Reg)
  /-- Fx0A LD Vx, K (45 R189) -/
  | ldVxK (x : Reg)
  /-- Fx15 LD DT, Vx (45 R191) -/
  | ldDtVx (x : Reg)
  /-- Fx18 LD ST, Vx (45 R192) -/
  | ldStVx (x : Reg)
  /-- Fx1E ADD I, Vx (43 R151) -/
  | addIVx (x : Reg)
  /-- Fx29 LD F, Vx (43 R152) -/
  | ldFVx (x : Reg)
  /-- Fx33 LD B, Vx (43 R153) -/
  | ldBVx (x : Reg)
  /-- Fx55 LD [I], Vx (43 R154) -/
  | ldMemVx (x : Reg)
  /-- Fx65 LD Vx, [I] (43 R155, R156) -/
  | ldVxMem (x : Reg)
  /-- any word that matches no other row (30 R77, 40_tick_cycle.md R96), with the word itself -/
  | unknown (op : Word)
  deriving DecidableEq, Repr

end Sys2Proof
end

