-- ==== Sys2Proof/Decode.lean ====
section
/-! DEFINITION. Decoding (30_encoding.md R70-R80): the fields of a word, the total dispatch from a word to
its instruction, decoding of a byte stream, and the encoder with the row each instruction's word selects. -/

namespace Sys2Proof

/-! ### The fields of a word (R71) -/

/-- `c`, nibble 1: `op[15:12]`. -/
def fieldC (op : Word) : BitVec 4 := op.extractLsb' 12 4

/-- `x`, nibble 2: `op[11:8]`, a register number. -/
def fieldX (op : Word) : Reg := (op.extractLsb' 8 4).toFin

/-- `y`, nibble 3: `op[7:4]`, a register number. -/
def fieldY (op : Word) : Reg := (op.extractLsb' 4 4).toFin

/-- `n`, nibble 4: `op[3:0]`, a sprite height or a secondary opcode. -/
def fieldN (op : Word) : BitVec 4 := op.extractLsb' 0 4

/-- `kk`: `op[7:0]`, an immediate byte or a secondary opcode. -/
def fieldKk (op : Word) : Byte := op.extractLsb' 0 8

/-- `nnn`: `op[11:0]`, an address. -/
def fieldNnn (op : Word) : BitVec 12 := op.extractLsb' 0 12

/-! ### Dispatch (R74, R75): first nibble, then the secondary opcode of the formats E, XY and X -/

/-- Class 0, format E: all 16 bits are fixed; the rest of the class is unknown (R77, R78). -/
def decodeClass0 (op : Word) : Instr :=
  if op = 0x00E0#16 then .cls else if op = 0x00EE#16 then .ret else .unknown op

/-- Class 5, format XY: `5xy0` only. -/
def decodeClass5 (op : Word) : Instr :=
  if fieldN op = 0x0#4 then .seReg (fieldX op) (fieldY op) else .unknown op

/-- Class 8, format XY: nibble 4 is the secondary opcode. -/
def decodeClass8 (op : Word) : Instr :=
  match fieldN op with
  | 0x0#4 => .ldReg (fieldX op) (fieldY op)
  | 0x1#4 => .orReg (fieldX op) (fieldY op)
  | 0x2#4 => .andReg (fieldX op) (fieldY op)
  | 0x3#4 => .xorReg (fieldX op) (fieldY op)
  | 0x4#4 => .addReg (fieldX op) (fieldY op)
  | 0x5#4 => .sub (fieldX op) (fieldY op)
  | 0x6#4 => .shr (fieldX op) (fieldY op)
  | 0x7#4 => .subn (fieldX op) (fieldY op)
  | 0xE#4 => .shl (fieldX op) (fieldY op)
  | _ => .unknown op

/-- Class 9, format XY: `9xy0` only. -/
def decodeClass9 (op : Word) : Instr :=
  if fieldN op = 0x0#4 then .sneReg (fieldX op) (fieldY op) else .unknown op

/-- Class E, format X: the low byte is the secondary opcode. -/
def decodeClassE (op : Word) : Instr :=
  match fieldKk op with
  | 0x9E#8 => .skp (fieldX op)
  | 0xA1#8 => .sknp (fieldX op)
  | _ => .unknown op

/-- Class F, format X: the low byte is the secondary opcode. -/
def decodeClassF (op : Word) : Instr :=
  match fieldKk op with
  | 0x07#8 => .ldVxDt (fieldX op)
  | 0x0A#8 => .ldVxK (fieldX op)
  | 0x15#8 => .ldDtVx (fieldX op)
  | 0x18#8 => .ldStVx (fieldX op)
  | 0x1E#8 => .addIVx (fieldX op)
  | 0x29#8 => .ldFVx (fieldX op)
  | 0x33#8 => .ldBVx (fieldX op)
  | 0x55#8 => .ldMemVx (fieldX op)
  | 0x65#8 => .ldVxMem (fieldX op)
  | _ => .unknown op

/-- The decoder: every word has exactly one meaning (R74). The last arm is class F, the one nibble left. -/
def decode (op : Word) : Instr :=
  match fieldC op with
  | 0x0#4 => decodeClass0 op
  | 0x1#4 => .jp (fieldNnn op)
  | 0x2#4 => .call (fieldNnn op)
  | 0x3#4 => .seImm (fieldX op) (fieldKk op)
  | 0x4#4 => .sneImm (fieldX op) (fieldKk op)
  | 0x5#4 => decodeClass5 op
  | 0x6#4 => .ldImm (fieldX op) (fieldKk op)
  | 0x7#4 => .addImm (fieldX op) (fieldKk op)
  | 0x8#4 => decodeClass8 op
  | 0x9#4 => decodeClass9 op
  | 0xA#4 => .ldI (fieldNnn op)
  | 0xB#4 => .jpV0 (fieldNnn op)
  | 0xC#4 => .rnd (fieldX op) (fieldKk op)
  | 0xD#4 => .drw (fieldX op) (fieldY op) (fieldN op)
  | 0xE#4 => decodeClassE op
  | _ => decodeClassF op

/-! ### From bytes -/

/-- Why a byte stream gives no instruction. No WORD is refused (R74); a stream shorter than one word is. -/
inductive DecodeError where
  /-- fewer than two bytes are left: not a whole instruction word (R70) -/
  | needsTwoBytes
  deriving DecidableEq, Repr

/-- The word of two bytes, the first (lower address) the high byte (20_memory.md R52). -/
def wordOfBytes (hi lo : Byte) : Word := hi ++ lo

/-- The high byte of a word, stored at the lower address. -/
def highByte (w : Word) : Byte := w.extractLsb' 8 8

/-- The low byte of a word, stored at the higher address. -/
def lowByte (w : Word) : Byte := w.extractLsb' 0 8

/-- One instruction off the front of a byte stream, with the bytes after it. -/
def decodeBytes : List Byte → Except DecodeError (Instr × List Byte)
  | hi :: lo :: rest => .ok (decode (wordOfBytes hi lo), rest)
  | [_] => .error .needsTwoBytes
  | [] => .error .needsTwoBytes

/-- The word whose bits `nbits-1` to 0 are `w`, bits above them 0. -/
def tableWord (nbits w : Nat) : Word := BitVec.ofNat 16 (w % 2 ^ nbits)

/-- The host's question: the instruction the decoder reads from the table's bits `w`, laid out as the
hardware stores a word (high byte first). -/
def decodeTableWord (nbits w : Nat) : Option Instr :=
  match decodeBytes [highByte (tableWord nbits w), lowByte (tableWord nbits w)] with
  | .ok (i, _) => some i
  | .error _ => none

/-! ### Encoding (R72, R75) -/

/-- Format A: `c n n n`. -/
def wordA (c : BitVec 4) (nnn : BitVec 12) : Word := c ++ nnn

/-- Formats XK and X: `c x k k`. -/
def wordXK (c : BitVec 4) (x : Reg) (kk : Byte) : Word := c ++ (BitVec.ofFin (w := 4) x ++ kk : BitVec 12)

/-- Formats XY and XYN: `c x y n`. -/
def wordXYN (c : BitVec 4) (x y : Reg) (n : BitVec 4) : Word :=
  c ++ (BitVec.ofFin (w := 4) x ++ (BitVec.ofFin (w := 4) y ++ n : BitVec 8) : BitVec 12)

/-- The word of an instruction. -/
def encode : Instr → Word
  | .cls => 0x00E0#16
  | .ret => 0x00EE#16
  | .jp nnn => wordA 0x1#4 nnn
  | .call nnn => wordA 0x2#4 nnn
  | .seImm x kk => wordXK 0x3#4 x kk
  | .sneImm x kk => wordXK 0x4#4 x kk
  | .seReg x y => wordXYN 0x5#4 x y 0x0#4
  | .ldImm x kk => wordXK 0x6#4 x kk
  | .addImm x kk => wordXK 0x7#4 x kk
  | .ldReg x y => wordXYN 0x8#4 x y 0x0#4
  | .orReg x y => wordXYN 0x8#4 x y 0x1#4
  | .andReg x y => wordXYN 0x8#4 x y 0x2#4
  | .xorReg x y => wordXYN 0x8#4 x y 0x3#4
  | .addReg x y => wordXYN 0x8#4 x y 0x4#4
  | .sub x y => wordXYN 0x8#4 x y 0x5#4
  | .shr x y => wordXYN 0x8#4 x y 0x6#4
  | .subn x y => wordXYN 0x8#4 x y 0x7#4
  | .shl x y => wordXYN 0x8#4 x y 0xE#4
  | .sneReg x y => wordXYN 0x9#4 x y 0x0#4
  | .ldI nnn => wordA 0xA#4 nnn
  | .jpV0 nnn => wordA 0xB#4 nnn
  | .rnd x kk => wordXK 0xC#4 x kk
  | .drw x y n => wordXYN 0xD#4 x y n
  | .skp x => wordXK 0xE#4 x 0x9E#8
  | .sknp x => wordXK 0xE#4 x 0xA1#8
  | .ldVxDt x => wordXK 0xF#4 x 0x07#8
  | .ldVxK x => wordXK 0xF#4 x 0x0A#8
  | .ldDtVx x => wordXK 0xF#4 x 0x15#8
  | .ldStVx x => wordXK 0xF#4 x 0x18#8
  | .addIVx x => wordXK 0xF#4 x 0x1E#8
  | .ldFVx x => wordXK 0xF#4 x 0x29#8
  | .ldBVx x => wordXK 0xF#4 x 0x33#8
  | .ldMemVx x => wordXK 0xF#4 x 0x55#8
  | .ldVxMem x => wordXK 0xF#4 x 0x65#8
  | .unknown op => op

/-- The row of R75 (its mask and match columns) that stands for the instruction; the unknown opcode's row has
mask 0 and match 0, as opcode_table.json gives it. -/
def Instr.row : Instr → OpcodeRow
  | .cls => ⟨0xFFFF, 0x00E0⟩
  | .ret => ⟨0xFFFF, 0x00EE⟩
  | .jp _ => ⟨0xF000, 0x1000⟩
  | .call _ => ⟨0xF000, 0x2000⟩
  | .seImm _ _ => ⟨0xF000, 0x3000⟩
  | .sneImm _ _ => ⟨0xF000, 0x4000⟩
  | .seReg _ _ => ⟨0xF00F, 0x5000⟩
  | .ldImm _ _ => ⟨0xF000, 0x6000⟩
  | .addImm _ _ => ⟨0xF000, 0x7000⟩
  | .ldReg _ _ => ⟨0xF00F, 0x8000⟩
  | .orReg _ _ => ⟨0xF00F, 0x8001⟩
  | .andReg _ _ => ⟨0xF00F, 0x8002⟩
  | .xorReg _ _ => ⟨0xF00F, 0x8003⟩
  | .addReg _ _ => ⟨0xF00F, 0x8004⟩
  | .sub _ _ => ⟨0xF00F, 0x8005⟩
  | .shr _ _ => ⟨0xF00F, 0x8006⟩
  | .subn _ _ => ⟨0xF00F, 0x8007⟩
  | .shl _ _ => ⟨0xF00F, 0x800E⟩
  | .sneReg _ _ => ⟨0xF00F, 0x9000⟩
  | .ldI _ => ⟨0xF000, 0xA000⟩
  | .jpV0 _ => ⟨0xF000, 0xB000⟩
  | .rnd _ _ => ⟨0xF000, 0xC000⟩
  | .drw _ _ _ => ⟨0xF000, 0xD000⟩
  | .skp _ => ⟨0xF0FF, 0xE09E⟩
  | .sknp _ => ⟨0xF0FF, 0xE0A1⟩
  | .ldVxDt _ => ⟨0xF0FF, 0xF007⟩
  | .ldVxK _ => ⟨0xF0FF, 0xF00A⟩
  | .ldDtVx _ => ⟨0xF0FF, 0xF015⟩
  | .ldStVx _ => ⟨0xF0FF, 0xF018⟩
  | .addIVx _ => ⟨0xF0FF, 0xF01E⟩
  | .ldFVx _ => ⟨0xF0FF, 0xF029⟩
  | .ldBVx _ => ⟨0xF0FF, 0xF033⟩
  | .ldMemVx _ => ⟨0xF0FF, 0xF055⟩
  | .ldVxMem _ => ⟨0xF0FF, 0xF065⟩
  | .unknown _ => ⟨0x0000, 0x0000⟩

end Sys2Proof
end

