-- ==== Sys2Proof/Config.lean ====
section
/-! DEFINITION. The fixed sizes of 00_scope.md R5 and the host's free inputs. The parameters that R5
leaves open with a default (FONT, ADDI_FLAG_THRESHOLD, LOAD_REGS_ASYMMETRIC) are in Machine/Params.lean. -/

namespace Sys2Proof.Config

/-- `MEM_SIZE`: bytes of memory, addresses 0x000 to 0xFFF (R5). -/
def memSize : Nat := 4096

/-- `PROG_BASE`: where `load` puts byte 0 of the program, and PC after reset (R5). -/
def progBase : Nat := 0x200

/-- `PROG_MAX`: how many bytes `load` keeps, `MEM_SIZE - PROG_BASE` (R5). -/
def progMax : Nat := 3584

/-- `STACK_DEPTH`: return-address slots (R5). -/
def stackDepth : Nat := 16

/-- `DISP_W`: display columns (R5). -/
def dispW : Nat := 64

/-- `DISP_H`: display rows (R5). -/
def dispH : Nat := 32

/-- FREE VALUE (log 1): the key vector the host passes with its t-th tick (40_tick_cycle.md R90).
No body: nothing constrains it. -/
opaque hostKeys : Nat → Keys

/-- FREE VALUE (log 1): the random byte the host passes with its t-th tick (42_load_alu.md R142, D19).
No body: nothing constrains it. -/
opaque hostRand : Nat → Byte

end Sys2Proof.Config
end

