-- ==== Sys2Proof/Machine/State.lean ====
section
/-! DEFINITION. The state record of 10_state.md R20 as plain data, the model's own bookkeeping beside it, the
reasons a step can stop, and the state after reset (R34). -/

namespace Sys2Proof.Machine

/-- The memory of 4096 bytes (20_memory.md R50) as (address, byte) pairs: addresses strictly rising, no entry
equal to what an unlisted address reads as (`Memory.wf`, `unlisted` in Machine/Memory.lean). -/
abbrev Memory := List Host.Cell

/-- The two values of `mode` (10_state.md R28); no privilege levels (60_exceptions.md R213). -/
inductive Mode where
  | running
  | waitingForKey
  deriving DecidableEq, Repr

/-- The machine's fault kinds (60_exceptions.md R201). A fault is a STATE of this hardware: the instruction that
raises it answers a next state whose `fault` register holds the kind and its info (R205; log 5). -/
inductive FaultKind where
  /-- CALL with SP = 16 (R203); info is the CALL's PC -/
  | stackOverflow
  /-- RET with SP = 0 (R204); info is the RET's PC -/
  | stackUnderflow
  /-- fetch, DRW, LD B, LD [I] or LD Vx, [I] above 0xFFF (R202); info is the lowest such address -/
  | memoryFault
  /-- SKP or SKNP with V[x] > 15 (R206); info is V[x] -/
  | keyIndexFault
  deriving DecidableEq, Repr

/-- What the `fault` register holds once it is not None: the pair of R201. The info is "16 bits or more"
(log 19). -/
structure FaultRecord where
  kind : FaultKind
  info : Nat
  deriving DecidableEq, Repr

/-- Everything the spec gives the machine (R20), and the model's own fields at the end. -/
structure State where
  /-- `memory` (20_memory.md R50) -/
  mem : Memory
  /-- `V`: V0 to VF (R21, R22) -/
  v : Vector Byte 16
  /-- `I` (R23) -/
  index : Word
  /-- `PC` (R24) -/
  pc : Word
  /-- `stack` (R25) -/
  stack : Vector Word 16
  /-- `SP`, 0 to 16 (R25) -/
  sp : Fin 17
  /-- `DT` (R26) -/
  dt : Byte
  /-- `ST` (R26) -/
  st : Byte
  /-- `keys` (R27) -/
  keys : Keys
  /-- `mode` (R28) -/
  mode : Mode
  /-- `wait_reg` (R28) -/
  waitReg : Reg
  /-- `disp` (R29) -/
  disp : Display
  /-- `dirty` (R30) -/
  dirty : Bool
  /-- `fault`, None or the kind with its info (R31) -/
  fault : Option FaultRecord
  /-- the model's own: the byte at the `rand` port in this tick, an input (R32; log 2) -/
  rand : Byte
  /-- the model's own: the tick's `unk`, shown on the `unknown_opcode` output (40_tick_cycle.md R96; log 3) -/
  unknownOpcode : Option Word
  /-- the model's own: `load` is still legal (70_reset_and_hazards.md R236; log 4) -/
  loadable : Bool
  /-- the model's own: numbers the host's free inputs (log 1) -/
  hostTick : Nat
  deriving DecidableEq, Repr

/-- How a step could stop with a fault: in no way. Every fault of this hardware is a state with the `fault`
register set (60_exceptions.md R205), and the tick after it is a no-op (40_tick_cycle.md R99), so no meaning
answers `.fault` and the type has no constructor (log 5). Safe: nothing is stopped that the spec lets go on. -/
inductive Fault where
  deriving DecidableEq, Repr

/-- Why the model answers no state. -/
inductive Refusal where
  /-- raised by exec's arm of an instruction that has no meaning yet; no arm raises it now. Safe. -/
  | notModelled (mnemonic : String)
  /-- raised by `State.load` when the host loads a second time or after the first tick: "a model should refuse
  any other use" (70_reset_and_hazards.md R236, D16; log 4). No instruction and no tick raises it. Safe. -/
  | loadNotAllowed
  deriving DecidableEq, Repr

/-- What exec and step answer. -/
abbrev Result := Host.Outcome State Fault Refusal

/-- The machine right after reset (construction), before `load`: 10_state.md R34, 70_reset_and_hazards.md R230.
PC, mode and the font (the unlisted bytes of `mem`) are the source's; the zeros are the spec's decision D4
(log 8); the last four fields are the model's own (logs 1 to 4). -/
def State.reset : State where
  mem := []
  v := Vector.replicate 16 0
  index := 0
  pc := BitVec.ofNat 16 Config.progBase
  stack := Vector.replicate 16 0
  sp := 0
  dt := 0
  st := 0
  keys := Vector.replicate 16 false
  mode := .running
  waitReg := 0
  disp := Vector.replicate 32 (Vector.replicate 64 false)
  dirty := false
  fault := none
  rand := 0
  unknownOpcode := none
  loadable := true
  hostTick := 0

end Sys2Proof.Machine
end

