-- ==== Sys2Proof/Machine/Params.lean ====
section
/-! DEFINITION. The parameters that 00_scope.md R5 leaves open, at the defaults it gives. They stand in this
folder, not in Config.lean, so that a repair may change a default. -/

namespace Sys2Proof.Machine

/-- `FONT`: the glyphs 0 to F of 10_state.md R37, five rows each (D6; general knowledge, log 7). -/
def fontGlyphs : List (List Byte) :=
  [[0xF0, 0x90, 0x90, 0x90, 0xF0], [0x20, 0x60, 0x20, 0x20, 0x70],
   [0xF0, 0x10, 0xF0, 0x80, 0xF0], [0xF0, 0x10, 0xF0, 0x10, 0xF0],
   [0x90, 0x90, 0xF0, 0x10, 0x10], [0xF0, 0x80, 0xF0, 0x10, 0xF0],
   [0xF0, 0x80, 0xF0, 0x90, 0xF0], [0xF0, 0x10, 0x20, 0x40, 0x40],
   [0xF0, 0x90, 0xF0, 0x90, 0xF0], [0xF0, 0x90, 0xF0, 0x10, 0xF0],
   [0xF0, 0x90, 0xF0, 0x90, 0x90], [0xE0, 0x90, 0xE0, 0x90, 0xE0],
   [0xF0, 0x80, 0x80, 0x80, 0xF0], [0xE0, 0x90, 0x90, 0x90, 0xE0],
   [0xF0, 0x80, 0xF0, 0x80, 0xF0], [0xF0, 0x80, 0xF0, 0x80, 0x80]]

/-- The 80 font bytes, glyph g at offset 5 * g (10_state.md R36). -/
def fontBytes : List Byte := fontGlyphs.flatten

/-- `ADDI_FLAG_THRESHOLD`: ADD I, Vx sets VF when the new I is greater than this (43_index_memory.md R151, D18;
log 15). -/
def addiFlagThreshold : Word := 0x0F00

/-- `LOAD_REGS_ASYMMETRIC`: whether LD Vx, [I] takes the original repository's defective form
(43_index_memory.md R156, D17; log 14). -/
def loadRegsAsymmetric : Bool := false

end Sys2Proof.Machine
end

