-- ==== Sys2Proof/Machine/Memory.lean ====
section
/-! DEFINITION. The operations over memory (20_memory.md R50-R57): reading and writing a byte in the canonical
form, and the multi-byte runs of R53, each checked as a whole before it moves a byte (R55). -/

namespace Sys2Proof.Machine

/-- What an address that memory does not list reads as: its reset content, the font at 0x000 and 0x00 above it
(10_state.md R34; log 16). -/
def unlisted (a : Nat) : Byte := fontBytes.getD a 0

/-- The byte memory holds for an address, whatever the address: the listed byte, else the unlisted one. -/
def Memory.byteAt : Memory → Nat → Byte
  | [], a => unlisted a
  | (k, b) :: rest, a => if k = a then b else Memory.byteAt rest a

/-- `MemRead(a, 1)` of 00_scope.md R9: none where it raises MemoryFault, above 0xFFF. -/
def Memory.read (m : Memory) (a : Nat) : Option Byte :=
  if a < Config.memSize then some (Memory.byteAt m a) else none

/-- Store one byte and keep the canonical form. The address is in range: `Memory.writeRun` checks it. -/
def Memory.put (a : Nat) (b : Byte) : Memory → Memory
  | [] => if b = unlisted a then [] else [(a, b)]
  | (k, c) :: rest =>
    if a < k then
      if b = unlisted a then (k, c) :: rest else (a, b) :: (k, c) :: rest
    else if a = k then
      if b = unlisted a then rest else (a, b) :: rest
    else (k, c) :: Memory.put a b rest

/-- Store a run of bytes at ascending addresses from a (20_memory.md R53). -/
def Memory.putRun (m : Memory) (a : Nat) : List Byte → Memory
  | [] => m
  | b :: bs => Memory.putRun (Memory.put a b m) (a + 1) bs

/-- Whether the n bytes at a, a+1, ... all exist: no reduction of the address before the comparison, and a run
of no bytes is no access (20_memory.md R55). -/
def runFits (a n : Nat) : Bool := n == 0 || a + (n - 1) < Config.memSize

/-- The lowest address above memory that an ascending run from a reaches: `first_bad` of 43_index_memory.md. -/
def firstBad (a : Nat) : Nat := if a < Config.memSize then Config.memSize else a

/-- The n bytes from a, or none when one of the addresses does not exist. -/
def Memory.readRun (m : Memory) (a n : Nat) : Option (List Byte) :=
  if runFits a n then some ((List.range n).map fun k => Memory.byteAt m (a + k)) else none

/-- Store the bytes from a on, or none, with nothing written, when one of the addresses does not exist
(60_exceptions.md R209). -/
def Memory.writeRun (m : Memory) (a : Nat) (bs : List Byte) : Option Memory :=
  if runFits a bs.length then some (Memory.putRun m a bs) else none

/-- The canonical form: addresses strictly rising and below 0x1000, no entry equal to the unlisted byte. -/
def Memory.wf : Memory → Bool
  | [] => true
  | (a, b) :: rest =>
    decide (a < Config.memSize) && b != unlisted a && rest.all (fun c => decide (a < c.1)) && Memory.wf rest

end Sys2Proof.Machine
end

