-- ==== Sys2Proof/Machine/Ops.lean ====
section
/-! DEFINITION. The named operations over the state: registers, flow directives (40_tick_cycle.md R95), the
return stack, the keys, the display, raising a fault (60_exceptions.md R205) and fetching (40 R93). -/

namespace Sys2Proof.Machine

/-! ### Registers (10_state.md R21, R22) -/

/-- The number of VF. -/
def vf : Reg := 15

/-- `V[x]`. -/
def State.readV (s : State) (x : Reg) : Byte := s.v[x.val]

/-- `V[x] <- b`. -/
def State.writeV (s : State) (x : Reg) (b : Byte) : State := { s with v := s.v.set x.val b }

/-- The registers V0 to Vx, in order: what LD [I], Vx stores. -/
def State.regsTo (s : State) (x : Reg) : List Byte := s.v.toList.take (x.val + 1)

/-- `V[k] <- b` for the bytes of a list, k ascending: what LD Vx, [I] writes. -/
def fillV (k : Nat) : List Byte → Vector Byte 16 → Vector Byte 16
  | [], v => v
  | b :: bs, v => fillV (k + 1) bs (v.setIfInBounds k b)

/-! ### Flow directives (40_tick_cycle.md R95; Hold by 90_conflicts.md C1) -/

/-- What an instruction ends with. -/
inductive Flow where
  | next
  | skip
  | jump (a : Word)
  | hold
  deriving DecidableEq, Repr

/-- Apply a flow directive to PC. -/
def State.flow (s : State) : Flow → State
  | .next => { s with pc := s.pc + 2 }
  | .skip => { s with pc := s.pc + 4 }
  | .jump a => { s with pc := a }
  | .hold => s

/-- Skip when the condition holds, else Next: the end of the conditional skips. -/
def State.skipIf (s : State) (c : Bool) : State := if c then s.flow .skip else s.flow .next

/-! ### Faults -/

/-- `raise F(info)`: the `fault` register takes the kind and the info, nothing else changes, PC stays
(60_exceptions.md R205, R209). There is no vector, no saved register and no return (R205, R210). -/
def State.raise (s : State) (k : FaultKind) (info : Nat) : State := { s with fault := some ⟨k, info⟩ }

/-- The numeric code of a fault kind (60_exceptions.md R201); None is 0. -/
def FaultKind.code : FaultKind → Nat
  | .stackOverflow => 1
  | .stackUnderflow => 2
  | .memoryFault => 3
  | .keyIndexFault => 4

/-- The code the `fault` register shows. -/
def State.faultCode (s : State) : Nat :=
  match s.fault with
  | none => 0
  | some f => f.kind.code

/-! ### The return stack (10_state.md R25) -/

/-- Write `stack[SP]`, then increment SP; none when SP = 16. -/
def State.push (s : State) (w : Word) : Option State :=
  if h : s.sp.val < 16 then
    some { s with stack := s.stack.set s.sp.val w, sp := ⟨s.sp.val + 1, by omega⟩ }
  else none

/-- Decrement SP, then read `stack[SP]`; none when SP = 0. The slot keeps its value. -/
def State.pop (s : State) : Option (Word × State) :=
  if h : 0 < s.sp.val then
    some (s.stack[s.sp.val - 1]'(by omega), { s with sp := ⟨s.sp.val - 1, by omega⟩ })
  else none

/-! ### Keys (10_state.md R27) -/

/-- `keys[k]`, or none when k is above 15 (45_keys_timers.md R186, D14). -/
def State.keyDown (s : State) (k : Nat) : Option Bool := s.keys[k]?

/-- The lowest pressed key (45_keys_timers.md R190). -/
def firstKey (keys : Keys) : Option Reg := (List.finRange 16).find? fun k => keys[k.val]

/-! ### The display (10_state.md R29, R30) -/

/-- The pixel at row r, column c. -/
def Display.pixel (d : Display) (r : Fin 32) (c : Fin 64) : Bool := d[r.val][c.val]

/-- Set the pixel at row r, column c. -/
def Display.setPixel (d : Display) (r : Fin 32) (c : Fin 64) (b : Bool) : Display :=
  d.set r.val (d[r.val].set c.val b)

/-- The buffer with every pixel 0. -/
def Display.blank : Display := Vector.replicate 32 (Vector.replicate 64 false)

/-- `dirty <- true`. -/
def State.markDirty (s : State) : State := { s with dirty := true }

/-! ### Fetch (20_memory.md R52, 40_tick_cycle.md R93) -/

/-- `Fetch16(a)`, high byte first, or none when a or a + 1 does not exist. -/
def Memory.fetch16 (m : Memory) (a : Nat) : Option Word :=
  match Memory.read m a, Memory.read m (a + 1) with
  | some hi, some lo => some (wordOfBytes hi lo)
  | _, _ => none

/-- Store a word where a fetch at a reads it. -/
def Memory.putWord (m : Memory) (a : Nat) (w : Word) : Memory :=
  Memory.putRun m a [highByte w, lowByte w]

/-- Whether a fetch at this PC finds both bytes (20_memory.md R55). -/
def fetchable (pc : Word) : Bool := decide (pc.toNat + 1 < Config.memSize)

/-- Where `State.withFetchWord` places an instruction: at PC, or at the program base when no fetch can succeed
at PC (log 18). -/
def fetchPlace (pc : Word) : Word := if fetchable pc then pc else BitVec.ofNat 16 Config.progBase

end Sys2Proof.Machine
end

