-- ==== Sys2Proof/Machine/HostPort.lean ====
section
/-! DEFINITION. The host's `load` action (70_reset_and_hazards.md R236, R237). Reset is `State.reset`, the tick is
`tick` in Machine/Tick.lean. -/

namespace Sys2Proof.Machine

/-- What `load` returns: whether bytes beyond the memory were dropped (R237). -/
structure LoadResult where
  truncated : Bool
  deriving DecidableEq, Repr

/-- The bytes of a program that `load` keeps: the first 3584 (R236). -/
def keptBytes (program : List Byte) : List Byte := program.take Config.progMax

/-- `load`: copy the program to 0x200 and up; legal once, after reset and before the first tick (D16; log 4). -/
def State.load (s : State) (program : List Byte) : Host.Outcome (State × LoadResult) Fault Refusal :=
  if s.loadable then
    .next ({ s with mem := Memory.putRun s.mem Config.progBase (keptBytes program), loadable := false },
      ⟨decide (program.length > Config.progMax)⟩)
  else .refused .loadNotAllowed

end Sys2Proof.Machine
end

