-- ==== Sys2Proof/Machine/Flags.lean ====
section
/-! DEFINITION. What VF is written with (10_state.md R22), one function per kind of flag. -/

namespace Sys2Proof.Machine

/-- A flag in a V register: 1 or 0. -/
def flagByte (b : Bool) : Byte := if b then 1 else 0

/-- Carry of ADD Vx, Vy: the unreduced sum is greater than 255 (42_load_alu.md R137). -/
def carryFlag (a b : Byte) : Byte := flagByte (decide (a.toNat + b.toNat > 255))

/-- Flag of SUB and SUBN: 1 exactly when the minuend is strictly greater (42 R136, R138, R140; 90 C5). -/
def greaterFlag (a b : Byte) : Byte := flagByte (decide (a.toNat > b.toNat))

/-- Flag of SHR: bit 0 before the shift (42 R139). -/
def lowBitFlag (a : Byte) : Byte := flagByte (a.getLsbD 0)

/-- Flag of SHL: bit 7 before the shift (42 R141). -/
def highBitFlag (a : Byte) : Byte := flagByte (a.getLsbD 7)

/-- Flag of ADD I, Vx: the new I, as stored, is greater than the threshold (43_index_memory.md R151). -/
def indexFlag (newIndex : Word) : Byte := flagByte (decide (newIndex.toNat > addiFlagThreshold.toNat))

end Sys2Proof.Machine
end

