-- ==== Sys2Proof/Machine/Operands.lean ====
section
/-! DEFINITION. The operand forms: zero extension (30_encoding.md R73), the computed operands of the index and
memory instructions (43_index_memory.md), and coordinates (44_display.md R173). -/

namespace Sys2Proof.Machine

/-- `zext_16(nnn)`: a 12-bit address as a 16-bit word. -/
def addrWord (nnn : BitVec 12) : Word := nnn.setWidth 16

/-- `zext_16(V[x])`. -/
def byteWord (b : Byte) : Word := b.setWidth 16

/-- The glyph address of LD F, Vx: `5 * zext_16(V[x])`, no mask on V[x] (43 R152). -/
def glyphAddr (b : Byte) : Word := 5 * byteWord b

/-- The hundreds, tens and ones digits of LD B, Vx, in the order they are stored (43 R153). -/
def bcdDigits (b : Byte) : List Byte :=
  [BitVec.ofNat 8 (b.toNat / 100), BitVec.ofNat 8 (b.toNat / 10 % 10), BitVec.ofNat 8 (b.toNat % 10)]

/-- A column: modulo 64 (44 R173). -/
def columnOf (n : Nat) : Fin 64 := ⟨n % Config.dispW, Nat.mod_lt _ (by decide)⟩

/-- A row: modulo 32 (44 R173). -/
def rowOf (n : Nat) : Fin 32 := ⟨n % Config.dispH, Nat.mod_lt _ (by decide)⟩

end Sys2Proof.Machine
end

