-- ==== Sys2Proof/Machine/Alu.lean ====
section
/-! DEFINITION. Register loads and the ALU (42_load_alu.md). Each statement reads the registers as the statement
before it left them (00_scope.md R9, D10), which decides the forms that name VF as an operand (R143; log 11). -/

namespace Sys2Proof.Machine

/-- `LD Vx, kk` (R130). -/
def execLdImm (x : Reg) (kk : Byte) (s : State) : Result := .next ((s.writeV x kk).flow .next)

/-- `ADD Vx, kk` (R131): modulo 256, VF untouched. -/
def execAddImm (x : Reg) (kk : Byte) (s : State) : Result := .next ((s.writeV x (s.readV x + kk)).flow .next)

/-- `LD Vx, Vy` (R132). -/
def execLdReg (x y : Reg) (s : State) : Result := .next ((s.writeV x (s.readV y)).flow .next)

/-- `OR Vx, Vy` (R133). -/
def execOr (x y : Reg) (s : State) : Result := .next ((s.writeV x (s.readV x ||| s.readV y)).flow .next)

/-- `AND Vx, Vy` (R134). -/
def execAnd (x y : Reg) (s : State) : Result := .next ((s.writeV x (s.readV x &&& s.readV y)).flow .next)

/-- `XOR Vx, Vy` (R135). -/
def execXor (x y : Reg) (s : State) : Result := .next ((s.writeV x (s.readV x ^^^ s.readV y)).flow .next)

/-- `ADD Vx, Vy` (R137): V[x], then VF. -/
def execAddReg (x y : Reg) (s : State) : Result :=
  .next (((s.writeV x (s.readV x + s.readV y)).writeV vf (carryFlag (s.readV x) (s.readV y))).flow .next)

/-- VF takes the flag, then V[x] takes a function of V[x] and V[y] as they then stand: the shape of SUB, SUBN,
SHR and SHL. -/
def State.flagThen (s : State) (flag : Byte) (x y : Reg) (f : Byte → Byte → Byte) : State :=
  let t := s.writeV vf flag
  (t.writeV x (f (t.readV x) (t.readV y))).flow .next

/-- `SUB Vx, Vy` (R138). -/
def execSub (x y : Reg) (s : State) : Result :=
  .next (s.flagThen (greaterFlag (s.readV x) (s.readV y)) x y fun a b => a - b)

/-- `SHR Vx` (R139); `y` is ignored (30_encoding.md R79). -/
def execShr (x _y : Reg) (s : State) : Result :=
  .next (s.flagThen (lowBitFlag (s.readV x)) x x fun a _ => a >>> 1)

/-- `SUBN Vx, Vy` (R140). -/
def execSubn (x y : Reg) (s : State) : Result :=
  .next (s.flagThen (greaterFlag (s.readV y) (s.readV x)) x y fun a b => b - a)

/-- `SHL Vx` (R141); `y` is ignored. -/
def execShl (x _y : Reg) (s : State) : Result :=
  .next (s.flagThen (highBitFlag (s.readV x)) x x fun a _ => a <<< 1)

/-- `RND Vx, kk` (R142): the byte at the `rand` port of this tick. -/
def execRnd (x : Reg) (kk : Byte) (s : State) : Result := .next ((s.writeV x (s.rand &&& kk)).flow .next)

end Sys2Proof.Machine
end

