-- ==== Sys2Proof/Machine/Control.lean ====
section
/-! DEFINITION. Control transfer (41_control_flow.md) and the unknown opcode (40_tick_cycle.md R96). PC holds
the address of the instruction itself; no target is checked when the transfer executes (R110). -/

namespace Sys2Proof.Machine

/-- `RET` (R111). -/
def execRet (s : State) : Result :=
  match s.pop with
  | some (a, t) => .next (t.flow (.jump a))
  | none => .next (s.raise .stackUnderflow s.pc.toNat)

/-- `JP nnn` (R112). -/
def execJp (nnn : BitVec 12) (s : State) : Result := .next (s.flow (.jump (addrWord nnn)))

/-- `CALL nnn` (R113). -/
def execCall (nnn : BitVec 12) (s : State) : Result :=
  match s.push (s.pc + 2) with
  | some t => .next (t.flow (.jump (addrWord nnn)))
  | none => .next (s.raise .stackOverflow s.pc.toNat)

/-- `SE Vx, kk` (R114). -/
def execSeImm (x : Reg) (kk : Byte) (s : State) : Result := .next (s.skipIf (s.readV x == kk))

/-- `SNE Vx, kk` (R115). -/
def execSneImm (x : Reg) (kk : Byte) (s : State) : Result := .next (s.skipIf (s.readV x != kk))

/-- `SE Vx, Vy` (R116). -/
def execSeReg (x y : Reg) (s : State) : Result := .next (s.skipIf (s.readV x == s.readV y))

/-- `SNE Vx, Vy` (R117). -/
def execSneReg (x y : Reg) (s : State) : Result := .next (s.skipIf (s.readV x != s.readV y))

/-- `JP V0, nnn` (R118): the sum is not reduced modulo 4096. -/
def execJpV0 (nnn : BitVec 12) (s : State) : Result :=
  .next (s.flow (.jump (addrWord nnn + byteWord (s.readV 0))))

/-- An unknown opcode (40 R96): reported on the `unknown_opcode` output, otherwise a no-op. -/
def execUnknown (op : Word) (s : State) : Result :=
  .next (State.flow { s with unknownOpcode := some op } .next)

end Sys2Proof.Machine
end

