-- ==== Sys2Proof/Machine/Index.lean ====
section
/-! DEFINITION. The index register and the memory transfers (43_index_memory.md). The effective address is
`I + k` as a natural number; a transfer that would touch an address above 0xFFF raises MemoryFault and moves
nothing. No transfer changes I. -/

namespace Sys2Proof.Machine

/-- Raise the MemoryFault of an ascending run from a. -/
def State.raiseMemory (s : State) (a : Nat) : State := s.raise .memoryFault (firstBad a)

/-- Store the bytes from I on and go to the next instruction, or raise MemoryFault with nothing written. -/
def State.storeAtIndex (s : State) (bs : List Byte) : Result :=
  match Memory.writeRun s.mem s.index.toNat bs with
  | some m => .next (State.flow { s with mem := m } .next)
  | none => .next (s.raiseMemory s.index.toNat)

/-- The normative form of LD Vx, [I] (R155): V[k] from I + k. -/
def State.loadRegs (s : State) (x : Reg) : Result :=
  match Memory.readRun s.mem s.index.toNat (x.val + 1) with
  | some bs => .next (State.flow { s with v := fillV 0 bs s.v } .next)
  | none => .next (s.raiseMemory s.index.toNat)

/-- The compatibility form of LD Vx, [I] (R156): every register V0 to Vx takes the one byte at I + 1. -/
def State.loadRegsCompat (s : State) (x : Reg) : Result :=
  match Memory.read s.mem (s.index.toNat + 1) with
  | some b => .next (State.flow { s with v := fillV 0 (List.replicate (x.val + 1) b) s.v } .next)
  | none => .next (s.raise .memoryFault (s.index.toNat + 1))

/-- `LD I, nnn` (R150). -/
def execLdI (nnn : BitVec 12) (s : State) : Result :=
  .next (State.flow { s with index := addrWord nnn } .next)

/-- `ADD I, Vx` (R151): I modulo 65536, then VF from the new I. -/
def execAddIVx (x : Reg) (s : State) : Result :=
  let i := s.index + byteWord (s.readV x)
  .next ((State.writeV { s with index := i } vf (indexFlag i)).flow .next)

/-- `LD F, Vx` (R152). -/
def execLdFVx (x : Reg) (s : State) : Result :=
  .next (State.flow { s with index := glyphAddr (s.readV x) } .next)

/-- `LD B, Vx` (R153). -/
def execLdBVx (x : Reg) (s : State) : Result := s.storeAtIndex (bcdDigits (s.readV x))

/-- `LD [I], Vx` (R154). -/
def execLdMemVx (x : Reg) (s : State) : Result := s.storeAtIndex (s.regsTo x)

/-- `LD Vx, [I]` (R155, or R156 when the parameter LOAD_REGS_ASYMMETRIC is true). -/
def execLdVxMem (x : Reg) (s : State) : Result :=
  if loadRegsAsymmetric then s.loadRegsCompat x else s.loadRegs x

end Sys2Proof.Machine
end

