-- ==== Sys2Proof/Machine/Keypad.lean ====
section
/-! DEFINITION. The key tests, the timer registers and the entry into the wait for a key (45_keys_timers.md
R186-R192). -/

namespace Sys2Proof.Machine

/-- `SKP Vx` (R186): KeyIndexFault when V[x] is above 15. -/
def execSkp (x : Reg) (s : State) : Result :=
  match s.keyDown (s.readV x).toNat with
  | some down => .next (s.skipIf down)
  | none => .next (s.raise .keyIndexFault (s.readV x).toNat)

/-- `SKNP Vx` (R187). -/
def execSknp (x : Reg) (s : State) : Result :=
  match s.keyDown (s.readV x).toNat with
  | some down => .next (s.skipIf !down)
  | none => .next (s.raise .keyIndexFault (s.readV x).toNat)

/-- `LD Vx, DT` (R188). -/
def execLdVxDt (x : Reg) (s : State) : Result := .next ((s.writeV x s.dt).flow .next)

/-- `LD Vx, K` (R189): enter the wait; PC stays on this instruction (D9, 90_conflicts.md C1; log 12). -/
def execLdVxK (x : Reg) (s : State) : Result :=
  .next (State.flow { s with mode := .waitingForKey, waitReg := x } .hold)

/-- `LD DT, Vx` (R191). -/
def execLdDtVx (x : Reg) (s : State) : Result := .next (State.flow { s with dt := s.readV x } .next)

/-- `LD ST, Vx` (R192). -/
def execLdStVx (x : Reg) (s : State) : Result := .next (State.flow { s with st := s.readV x } .next)

end Sys2Proof.Machine
end

