-- ==== Sys2Proof/Machine/Screen.lean ====
section
/-! DEFINITION. The display engine: clear and draw (44_display.md R170-R173). The loops of R173 are written as it
writes them: V[y] is read once per row, V[x] once per pixel, VF is live between them (D10; log 11). -/

namespace Sys2Proof.Machine

/-- One pixel of R173's inner loop: bit `bit` of the sprite byte (bit 0 of the loop is the leftmost pixel). -/
def drawPixel (x : Reg) (r : Fin 32) (sprite : Byte) (s : State) (bit : Nat) : State :=
  let c := columnOf ((s.readV x).toNat + bit)
  let src := sprite.getLsbD (7 - bit)
  let old := Display.pixel s.disp r c
  State.writeV { s with disp := Display.setPixel s.disp r c (old ^^ src) } vf
    (s.readV vf ||| flagByte (src && old))

/-- One sprite byte, most significant bit first. -/
def drawRow (x : Reg) (r : Fin 32) (sprite : Byte) (s : State) : State :=
  (List.range 8).foldl (drawPixel x r sprite) s

/-- The sprite rows from row number k on. -/
def drawRows (x y : Reg) (k : Nat) : List Byte → State → State
  | [], s => s
  | b :: bs, s => drawRows x y (k + 1) bs (drawRow x (rowOf ((s.readV y).toNat + k)) b s)

/-- `CLS` (R171). -/
def execCls (s : State) : Result := .next ((State.markDirty { s with disp := Display.blank }).flow .next)

/-- `DRW Vx, Vy, n` (R173). Memory does not change while it draws, so the sprite is read before the loops; a
sprite byte above 0xFFF raises MemoryFault before VF is cleared (60_exceptions.md R209). -/
def execDrw (x y : Reg) (n : BitVec 4) (s : State) : Result :=
  match Memory.readRun s.mem s.index.toNat n.toNat with
  | some sprite => .next (((drawRows x y 0 sprite (s.writeV vf 0)).markDirty).flow .next)
  | none => .next (s.raiseMemory s.index.toNat)

end Sys2Proof.Machine
end

