-- ==== Sys2Proof/Machine/Tick.lean ====
section
/-! DEFINITION. The tick (40_tick_cycle.md R90): latch the inputs, run the timers, then the wait machine or
fetch and execute; and the tick's output record (R98, R99). -/

namespace Sys2Proof.Machine

/-- The inputs of one tick (R90): the key vector and the random byte. -/
structure TickInput where
  keys : Keys
  rand : Byte
  deriving DecidableEq, Repr

/-- What the host passes with the next tick: free values (D19; log 1). -/
def State.hostInput (s : State) : TickInput := ⟨Config.hostKeys s.hostTick, Config.hostRand s.hostTick⟩

/-- Tick start (R91): the key flags are replaced, `dirty` and `unk` are cleared; the random byte is latched for
RND. A load is no longer legal (70_reset_and_hazards.md R236). -/
def State.tickStart (s : State) (inp : TickInput) : State :=
  { s with keys := inp.keys, rand := inp.rand, dirty := false, unknownOpcode := none, loadable := false,
           hostTick := s.hostTick + 1 }

/-- One down, with the floor at 0 (45_keys_timers.md R185). -/
def tickDown (t : Byte) : Byte := if t = 0 then 0 else t - 1

/-- The timer step (R92, 45 R185). -/
def State.timerStep (s : State) : State := { s with dt := tickDown s.dt, st := tickDown s.st }

/-- The part every tick of an unfaulted machine begins with. -/
def State.begin (s : State) (inp : TickInput) : State := (s.tickStart inp).timerStep

/-- The wait machine (45 R190): the lowest pressed key goes to `V[wait_reg]`, the machine runs again, PC moves
past the waiting instruction (D9); with no key down nothing happens. -/
def State.waitMachine (s : State) : State :=
  match firstKey s.keys with
  | some k => State.flow { s.writeV s.waitReg (BitVec.ofNat 8 k.val) with mode := .running } .next
  | none => s

/-- Fetch, decode and execute one instruction (R93, R94). -/
def State.fetchExec (s : State) : Result :=
  match Memory.fetch16 s.mem s.pc.toNat with
  | some op => exec (decode op) s
  | none => .next (s.raise .memoryFault (firstBad s.pc.toNat))

/-- The tick of an unfaulted machine: begin, then the branch its mode selects (R90 steps 1 to 4). -/
def State.tickBody (s : State) (inp : TickInput) : Result :=
  match (s.begin inp).mode with
  | .waitingForKey => .next (s.begin inp).waitMachine
  | .running => (s.begin inp).fetchExec

/-- One tick with given inputs. On a faulted machine it changes nothing (R99, D22). -/
def tick (inp : TickInput) (s : State) : Result :=
  match s.fault with
  | some _ => .next s
  | none => s.tickBody inp

/-- The output record of a tick (R90). -/
structure TickOutput where
  display : Option Display
  soundActive : Bool
  fault : Option FaultRecord
  unknownOpcode : Option Word
  deriving DecidableEq, Repr

/-- Step 5 of R90: the outputs formed from the state the tick left (R98, 45 R193). -/
def State.outputs (s : State) : TickOutput :=
  { display := if s.dirty then some s.disp else none
    soundActive := s.st != 0
    fault := s.fault
    unknownOpcode := s.unknownOpcode }

/-- Step 0 of R90: the outputs of a tick on a faulted machine (R99). -/
def State.faultedOutputs (s : State) : TickOutput :=
  { display := none, soundActive := s.st != 0, fault := s.fault, unknownOpcode := none }

/-- The tick port (R90): the next state and the output record. -/
def tickPort (inp : TickInput) (s : State) : Host.Outcome (State × TickOutput) Fault Refusal :=
  match tick inp s with
  | .next t => .next (t, if s.fault.isSome then t.faultedOutputs else t.outputs)
  | .fault r => .fault r
  | .refused r => .refused r

/-- The ticks of a list of inputs, one after another. -/
def ticks : List TickInput → State → Result
  | [], s => .next s
  | inp :: rest, s =>
    match tick inp s with
    | .next t => ticks rest t
    | .fault r => .fault r
    | .refused r => .refused r

end Sys2Proof.Machine
end

