-- ==== Sys2Proof/Machine/Step.lean ====
section
/-! DEFINITION. The step: one tick, its inputs whatever the host passes (40_tick_cycle.md R90, R101). -/

namespace Sys2Proof.Machine

/-- One tick with the host's free inputs (log 1). -/
def step (s : State) : Host.Outcome State Fault Refusal := tick s.hostInput s

/-- `s` with the instruction word of the opcode table's bits `w` where the next fetch reads it. A machine that is
waiting or faulted does not fetch, and one whose PC is above 0xFFE cannot, so the mode, the fault register and
such a PC are set too; in the reset state these already have the values needed (log 18). -/
def State.withFetchWord (s : State) (nbits w : Nat) : State :=
  { s with mem := Memory.putWord s.mem (fetchPlace s.pc).toNat (tableWord nbits w)
           pc := fetchPlace s.pc, mode := .running, fault := none }

end Sys2Proof.Machine
end

