-- ==== Sys2Proof/Safety.lean ====
section
/-! DEFINITION. The terms claims use: safe, finished and well-kept states, and what the spec's whole-machine
tables say of an instruction (10_state.md R22, R33; 40_tick_cycle.md R100; 60_exceptions.md R201), written
without the meanings. -/

namespace Sys2Proof.Machine

/-- Safe: no fault has occurred (60_exceptions.md R205; 70 R242: a faulted state is never a successful end). -/
abbrev State.safe (s : State) : Prop := s.fault = none

/-- The convention of 70_reset_and_hazards.md R242: PC holds the address of a `JP` to that same address, the
machine runs and has not faulted. -/
abbrev State.finished (s : State) : Prop :=
  ∃ op nnn, Memory.fetch16 s.mem s.pc.toNat = some op ∧ decode op = .jp nnn ∧ nnn.toNat = s.pc.toNat ∧
    s.mode = .running ∧ s.safe

/-- The machine's invariant: memory in canonical form; PC and the stack within the bounds that 10_state.md R24
and R25 give; a waiting machine sits on an instruction it could fetch (R24); a faulted machine is not waiting
and shows no display and no unknown opcode (40_tick_cycle.md R99), and can no longer be loaded. -/
structure State.Inv (s : State) : Prop where
  memWf : Memory.wf s.mem = true
  pcBound : s.pc.toNat ≤ 0x10FE
  stackBound : ∀ k : Fin 16, s.stack[k.val].toNat ≤ 0x1000
  waitingPc : s.mode = .waitingForKey → s.pc.toNat ≤ 0xFFE
  faulted : ¬ s.safe → s.mode = .running ∧ s.dirty = false ∧ s.unknownOpcode = none ∧ s.loadable = false

/-- The V registers an instruction may write: its destination, the registers V0 to Vx of a register load, and VF
where it is written as a flag (R22, R33). -/
def writesReg : Instr → Reg → Bool
  | .ldImm x _, z | .addImm x _, z | .ldReg x _, z | .orReg x _, z | .andReg x _, z | .xorReg x _, z
  | .rnd x _, z | .ldVxDt x, z => z == x
  | .addReg x _, z | .sub x _, z | .shr x _, z | .subn x _, z | .shl x _, z => z == x || z == 15
  | .drw _ _ _, z | .addIVx _, z => z == 15
  | .ldVxMem x, z => z ≤ x
  | .cls, _ | .ret, _ | .jp _, _ | .call _, _ | .seImm _ _, _ | .sneImm _ _, _ | .seReg _ _, _ | .sneReg _ _, _
  | .ldI _, _ | .jpV0 _, _ | .skp _, _ | .sknp _, _ | .ldVxK _, _ | .ldDtVx _, _ | .ldStVx _, _ | .ldFVx _, _
  | .ldBVx _, _ | .ldMemVx _, _ | .unknown _, _ => false

/-- The lowest address above 0xFFF of n bytes from a, when there is one. -/
def badAddress (a n : Nat) : Option Nat :=
  if 0 < n ∧ 0xFFF < a + (n - 1) then some (if 0xFFF < a then a else 0x1000) else none

/-- The fault an instruction raises in a state, by the table of R201 and the list of R202. -/
def faultOf (i : Instr) (s : State) : Option FaultRecord :=
  match i with
  | .call _ => if s.sp.val = 16 then some ⟨.stackOverflow, s.pc.toNat⟩ else none
  | .ret => if s.sp.val = 0 then some ⟨.stackUnderflow, s.pc.toNat⟩ else none
  | .drw _ _ n => (badAddress s.index.toNat n.toNat).map (⟨.memoryFault, ·⟩)
  | .ldBVx _ => (badAddress s.index.toNat 3).map (⟨.memoryFault, ·⟩)
  | .ldMemVx x | .ldVxMem x => (badAddress s.index.toNat (x.val + 1)).map (⟨.memoryFault, ·⟩)
  | .skp x | .sknp x =>
    if 15 < s.v[x.val].toNat then some ⟨.keyIndexFault, s.v[x.val].toNat⟩ else none
  | .cls | .jp _ | .seImm _ _ | .sneImm _ _ | .seReg _ _ | .ldImm _ _ | .addImm _ _ | .ldReg _ _ | .orReg _ _
  | .andReg _ _ | .xorReg _ _ | .addReg _ _ | .sub _ _ | .shr _ _ | .subn _ _ | .shl _ _ | .sneReg _ _ | .ldI _
  | .jpV0 _ | .rnd _ _ | .ldVxDt _ | .ldVxK _ | .ldDtVx _ | .ldStVx _ | .addIVx _ | .ldFVx _ | .unknown _ => none

/-- Where PC goes when an instruction executes without a fault: the directive table of R95 and R100. -/
def pcAfter (i : Instr) (s : State) : Nat :=
  match i with
  | .ret => (s.stack.toList.getD (s.sp.val - 1) 0).toNat
  | .jp nnn | .call nnn => nnn.toNat
  | .jpV0 nnn => nnn.toNat + s.v[0].toNat
  | .seImm x kk => s.pc.toNat + if s.v[x.val] = kk then 4 else 2
  | .sneImm x kk => s.pc.toNat + if s.v[x.val] = kk then 2 else 4
  | .seReg x y => s.pc.toNat + if s.v[x.val] = s.v[y.val] then 4 else 2
  | .sneReg x y => s.pc.toNat + if s.v[x.val] = s.v[y.val] then 2 else 4
  | .skp x => s.pc.toNat + if s.keys.toList.getD s.v[x.val].toNat false then 4 else 2
  | .sknp x => s.pc.toNat + if s.keys.toList.getD s.v[x.val].toNat false then 2 else 4
  | .ldVxK _ => s.pc.toNat
  | .cls | .ldImm _ _ | .addImm _ _ | .ldReg _ _ | .orReg _ _ | .andReg _ _ | .xorReg _ _ | .addReg _ _
  | .sub _ _ | .shr _ _ | .subn _ _ | .shl _ _ | .ldI _ | .rnd _ _ | .drw _ _ _ | .ldVxDt _ | .ldDtVx _
  | .ldStVx _ | .addIVx _ | .ldFVx _ | .ldBVx _ | .ldMemVx _ | .ldVxMem _ | .unknown _ => s.pc.toNat + 2

/-- What address c holds after the bytes `bs` are stored from address a on: the stored byte inside the run, else what
memory held (20_memory.md R53, R62). -/
def byteAfter (m : Memory) (a : Nat) (bs : List Byte) (c : Nat) : Byte :=
  if a ≤ c ∧ c < a + bs.length then bs.getD (c - a) 0 else Memory.byteAt m c

/-- The sprite bit that a draw of n rows at column vx, row vy puts on pixel (r, c): the bit of the byte at
I + (r - vy mod 32), column c - vx mod 64, if the pixel lies in the sprite (44_display.md R173 case (a)). -/
def spriteBit (s : State) (vx vy n : Nat) (r : Fin 32) (c : Fin 64) : Bool :=
  let dr := (r.val + 32 - vy % 32) % 32
  let dc := (c.val + 64 - vx % 64) % 64
  decide (dr < n) && decide (dc < 8) && (Memory.byteAt s.mem (s.index.toNat + dr)).getLsbD (7 - dc)

/-- One pixel of R173's inner loop over the buffer and the collision flag alone; `cx` gives the column register's
value while the flag is what it is. -/
def blitPixel (cx : Bool → Nat) (r : Fin 32) (sprite : Byte) (p : Display × Bool) (bit : Nat) : Display × Bool :=
  let c : Fin 64 := Fin.ofNat 64 (cx p.2 + bit)
  let src := sprite.getLsbD (7 - bit)
  (Display.setPixel p.1 r c (Display.pixel p.1 r c ^^ src), p.2 || (src && Display.pixel p.1 r c))

/-- R173's outer loop from row k on; `cy` gives the row register's value when the row starts. -/
def blitRows (cx cy : Bool → Nat) (k : Nat) : List Byte → Display × Bool → Display × Bool
  | [], p => p
  | b :: bs, p =>
    blitRows cx cy (k + 1) bs ((List.range 8).foldl (blitPixel cx (Fin.ofNat 32 (cy p.2 + k)) b) p)

/-- The value a coordinate register has during a draw: the live flag for VF, else the register (R173 case (f)). -/
def coordinate (s : State) (x : Reg) (flag : Bool) : Nat := if x = 15 then flag.toNat else s.v[x.val].toNat

end Sys2Proof.Machine
end

