-- ==== Sys2Proof/Certificates/Slice0/Obligations.lean ====
section
/-! DEFINITION. The statements for the provers, file by file of the spec. Where a statement gives the next state as
a record `{ s with … }`, every field not named is unchanged: that is its frame, memory byte for byte included. -/

open Sys2Proof Sys2Proof.Machine

/-! ### 30_encoding.md -/

/-- R74, R75, R77: the word of a well-formed instruction decodes to that instruction, every operand at every value. -/
def Obligations.InstructionWordsRoundTrip : Prop :=
  ∀ i : Instr, i.wellFormed = true → decode (encode i) = i

/-- R74: every word has exactly one meaning, and no bit of it is lost. -/
def Obligations.EveryWordIsTheWordOfItsInstruction : Prop :=
  ∀ op : Word, (decode op).wellFormed = true ∧ encode (decode op) = op

/-- R75, R77 (patterns: the spec's decision D7, log 6): a word selects the row whose mask and match fit, with the
operand fields of R71; a word that fits no row is unknown. -/
def Obligations.DecodeFollowsTheOpcodeMap : Prop :=
  ∀ op : Word,
    let x : Reg := (op.extractLsb' 8 4).toFin
    let y : Reg := (op.extractLsb' 4 4).toFin
    let n : BitVec 4 := op.extractLsb' 0 4
    let kk : Byte := op.extractLsb' 0 8
    let nnn : BitVec 12 := op.extractLsb' 0 12
    (op &&& 0xFFFF = 0x00E0 → decode op = .cls) ∧
    (op &&& 0xFFFF = 0x00EE → decode op = .ret) ∧
    (op &&& 0xF000 = 0x1000 → decode op = .jp nnn) ∧
    (op &&& 0xF000 = 0x2000 → decode op = .call nnn) ∧
    (op &&& 0xF000 = 0x3000 → decode op = .seImm x kk) ∧
    (op &&& 0xF000 = 0x4000 → decode op = .sneImm x kk) ∧
    (op &&& 0xF00F = 0x5000 → decode op = .seReg x y) ∧
    (op &&& 0xF000 = 0x6000 → decode op = .ldImm x kk) ∧
    (op &&& 0xF000 = 0x7000 → decode op = .addImm x kk) ∧
    (op &&& 0xF00F = 0x8000 → decode op = .ldReg x y) ∧
    (op &&& 0xF00F = 0x8001 → decode op = .orReg x y) ∧
    (op &&& 0xF00F = 0x8002 → decode op = .andReg x y) ∧
    (op &&& 0xF00F = 0x8003 → decode op = .xorReg x y) ∧
    (op &&& 0xF00F = 0x8004 → decode op = .addReg x y) ∧
    (op &&& 0xF00F = 0x8005 → decode op = .sub x y) ∧
    (op &&& 0xF00F = 0x8006 → decode op = .shr x y) ∧
    (op &&& 0xF00F = 0x8007 → decode op = .subn x y) ∧
    (op &&& 0xF00F = 0x800E → decode op = .shl x y) ∧
    (op &&& 0xF00F = 0x9000 → decode op = .sneReg x y) ∧
    (op &&& 0xF000 = 0xA000 → decode op = .ldI nnn) ∧
    (op &&& 0xF000 = 0xB000 → decode op = .jpV0 nnn) ∧
    (op &&& 0xF000 = 0xC000 → decode op = .rnd x kk) ∧
    (op &&& 0xF000 = 0xD000 → decode op = .drw x y n) ∧
    (op &&& 0xF0FF = 0xE09E → decode op = .skp x) ∧
    (op &&& 0xF0FF = 0xE0A1 → decode op = .sknp x) ∧
    (op &&& 0xF0FF = 0xF007 → decode op = .ldVxDt x) ∧
    (op &&& 0xF0FF = 0xF00A → decode op = .ldVxK x) ∧
    (op &&& 0xF0FF = 0xF015 → decode op = .ldDtVx x) ∧
    (op &&& 0xF0FF = 0xF018 → decode op = .ldStVx x) ∧
    (op &&& 0xF0FF = 0xF01E → decode op = .addIVx x) ∧
    (op &&& 0xF0FF = 0xF029 → decode op = .ldFVx x) ∧
    (op &&& 0xF0FF = 0xF033 → decode op = .ldBVx x) ∧
    (op &&& 0xF0FF = 0xF055 → decode op = .ldMemVx x) ∧
    (op &&& 0xF0FF = 0xF065 → decode op = .ldVxMem x) ∧
    (isUnknownWord op = true → decode op = .unknown op)

/-- R74: the 34 patterns are pairwise disjoint, no word matches two. -/
def Obligations.OpcodePatternsAreDisjoint : Prop :=
  opcodeMap.length = 34 ∧
    opcodeMap.Pairwise fun r q => ∀ op : Word, ¬ (op &&& r.mask = r.pattern ∧ op &&& q.mask = q.pattern)

/-- R70 to R79: words of the spec's own examples, as bytes in memory order, are the instructions they stand for. -/
def Obligations.ExampleWordsDecode : Prop :=
  decodeBytes [0x00, 0xE0] = .ok (.cls, []) ∧
  decodeBytes [0x1A, 0xBC] = .ok (.jp 0xABC, []) ∧
  decodeBytes [0x33, 0x2A] = .ok (.seImm 3 0x2A, []) ∧
  decodeBytes [0x81, 0x24] = .ok (.addReg 1 2, []) ∧
  decodeBytes [0x81, 0x76] = .ok (.shr 1 7, []) ∧
  decodeBytes [0xA2, 0xF0] = .ok (.ldI 0x2F0, []) ∧
  decodeBytes [0xC1, 0x0F] = .ok (.rnd 1 0x0F, []) ∧
  decodeBytes [0xD1, 0x25] = .ok (.drw 1 2 5, []) ∧
  decodeBytes [0xE2, 0x9E] = .ok (.skp 2, []) ∧
  decodeBytes [0xF5, 0x0A] = .ok (.ldVxK 5, []) ∧
  decodeBytes [0xF2, 0x55, 0x12] = .ok (.ldMemVx 2, [0x12]) ∧
  decodeBytes [0x51, 0x21] = .ok (.unknown 0x5121, []) ∧
  decodeBytes [0x12] = .error .needsTwoBytes

/-! ### 10_state.md, 70_reset_and_hazards.md -/

/-- R34, R230, R231: the state after reset. PC and mode are the source's; the font bytes are R37's (general
knowledge, D6, log 7); the zeros are the spec's decision D4 (log 8) and fault None its decision D11. -/
def Obligations.ResetLeavesTheStateOfRuleR34 : Prop :=
  let s := State.reset
  s.pc = 0x200 ∧ s.mode = .running ∧
  (List.range 80).map (Memory.read s.mem) =
    ([0xF0, 0x90, 0x90, 0x90, 0xF0, 0x20, 0x60, 0x20, 0x20, 0x70, 0xF0, 0x10, 0xF0, 0x80, 0xF0, 0xF0, 0x10, 0xF0,
      0x10, 0xF0, 0x90, 0x90, 0xF0, 0x10, 0x10, 0xF0, 0x80, 0xF0, 0x10, 0xF0, 0xF0, 0x80, 0xF0, 0x90, 0xF0, 0xF0,
      0x10, 0x20, 0x40, 0x40, 0xF0, 0x90, 0xF0, 0x90, 0xF0, 0xF0, 0x90, 0xF0, 0x10, 0xF0, 0xF0, 0x90, 0xF0, 0x90,
      0x90, 0xE0, 0x90, 0xE0, 0x90, 0xE0, 0xF0, 0x80, 0x80, 0x80, 0xF0, 0xE0, 0x90, 0x90, 0x90, 0xE0, 0xF0, 0x80,
      0xF0, 0x80, 0xF0, 0xF0, 0x80, 0xF0, 0x80, 0x80] : List Byte).map some ∧
  (∀ a, 0x50 ≤ a → a ≤ 0xFFF → Memory.read s.mem a = some 0) ∧
  (∀ a, 0xFFF < a → Memory.read s.mem a = none) ∧
  (∀ x : Reg, s.v[x.val] = 0) ∧ s.index = 0 ∧ s.sp = 0 ∧ (∀ k : Fin 16, s.stack[k.val] = 0) ∧
  s.dt = 0 ∧ s.st = 0 ∧ (∀ k : Reg, s.keys[k.val] = false) ∧ s.waitReg = 0 ∧
  (∀ r c, Display.pixel s.disp r c = false) ∧ s.dirty = false ∧ s.fault = none

/-- The reset state meets the invariant. -/
def Obligations.ResetMeetsTheMachineInvariant : Prop := State.reset.Inv

/-- R24, R25, R95, R99 with the memory's canonical form: every tick, whatever its inputs, keeps the invariant, and so
does every step. -/
def Obligations.EveryStepKeepsTheMachineInvariant : Prop :=
  ∀ s : State, s.Inv →
    (∀ inp t, tick inp s = .next t → t.Inv) ∧ (∀ t, step s = .next t → t.Inv)

/-- R236, R237 (decision D16, log 4): `load` copies the first 3584 bytes to 0x200 and up, writes memory and
nothing else, reports truncation, keeps the invariant; it is refused after the first load or tick. -/
def Obligations.LoadCopiesTheProgramOnce : Prop :=
  ∀ (s : State) (program : List Byte), s.Inv →
    (s.loadable = true → ∃ m,
      s.load program = .next ({ s with mem := m, loadable := false }, ⟨decide (3584 < program.length)⟩) ∧
      ({ s with mem := m, loadable := false } : State).Inv ∧
      (∀ k, k < 3584 → k < program.length → Memory.read m (0x200 + k) = program[k]?) ∧
      (∀ a, (a < 0x200 ∨ 0x200 + program.length ≤ a) → Memory.read m a = Memory.read s.mem a)) ∧
    (s.loadable = false → s.load program = .refused .loadNotAllowed) ∧
    (∀ inp t, s.safe → tick inp s = .next t → t.loadable = false)

/-! ### 40_tick_cycle.md -/

/-- R90 to R94, R52, R185 (sampling by decision D21, log 22): when the two bytes at PC decode to an instruction, the
tick of a running machine is that instruction's execution in the state with the keys latched, `dirty` cleared and
both timers one down. The model's choices, no rule's: the latched random byte (log 2), the unknown-opcode field
(log 3), the used-up load (log 4) and the tick count (log 1) in that state, and the last clause, that a step is a
tick with the host's free inputs (log 1). -/
def Obligations.StepRunsTheDecodedInstruction : Prop :=
  ∀ (inp : TickInput) (s : State) (i : Instr) (hi lo : Byte),
    s.safe → s.mode = .running → Memory.read s.mem s.pc.toNat = some hi →
    Memory.read s.mem (s.pc.toNat + 1) = some lo → decodeBytes [hi, lo] = .ok (i, []) →
    tick inp s = exec i { s with
      keys := inp.keys, rand := inp.rand, dirty := false, unknownOpcode := none, loadable := false
      hostTick := s.hostTick + 1
      dt := if s.dt = 0 then 0 else s.dt - 1, st := if s.st = 0 then 0 else s.st - 1 } ∧
    step s = tick ⟨Config.hostKeys s.hostTick, Config.hostRand s.hostTick⟩ s

/-- R90, R99: the step function is total; no tick and no instruction stops the model. -/
def Obligations.EveryTickAnswersANextState : Prop :=
  (∀ i s, ∃ t, exec i s = .next t) ∧ (∀ inp s, ∃ t, tick inp s = .next t) ∧ (∀ s, ∃ t, step s = .next t)

/-- R93, R202 (a), R205 (info by decision D12): a running machine whose PC is above 0xFFE fetches nothing and takes a
MemoryFault with the first address out of range; only the tick's start has happened. -/
def Obligations.FetchAboveMemoryFaults : Prop :=
  ∀ (inp : TickInput) (s : State), s.safe → s.mode = .running → 0xFFE < s.pc.toNat →
    tick inp s = .next { s.begin inp with
      fault := some ⟨.memoryFault, if 0xFFF < s.pc.toNat then s.pc.toNat else 0x1000⟩ }

/-- R99, R210 (decisions D11, D22): a tick on a faulted machine changes nothing, and shows the fault, no display and
no unknown opcode. -/
def Obligations.FaultedMachineIsFrozen : Prop :=
  ∀ (inp : TickInput) (s : State), ¬ s.safe →
    tick inp s = .next s ∧ step s = .next s ∧
    tickPort inp s = .next (s,
      { display := none, soundActive := decide (0 < s.st.toNat), fault := s.fault, unknownOpcode := none })

/-- R96 (output by decision D20): an unknown opcode changes PC only and is shown on the unknown-opcode output. -/
def Obligations.UnknownOpcodeIsANoOp : Prop :=
  ∀ (op : Word) (s : State),
    exec (.unknown op) s = .next { s with pc := s.pc + 2, unknownOpcode := some op }

/-- R95, R97, R100: how PC changes over one tick, for every tick. -/
def Obligations.ProgramCounterMovesByItsDirective : Prop :=
  ∀ (inp : TickInput) (s t : State), tick inp s = .next t →
    (¬ s.safe → t.pc = s.pc) ∧
    (s.safe → ¬ t.safe → t.pc = s.pc) ∧
    (s.safe → s.mode = .waitingForKey →
      t.pc = if ∃ k : Reg, inp.keys[k.val] = true then s.pc + 2 else s.pc) ∧
    (s.safe → t.safe → s.mode = .running →
      ∃ op, Memory.fetch16 s.mem s.pc.toNat = some op ∧ t.pc.toNat = pcAfter (decode op) (s.begin inp))

/-- R98, R175, R193, R90 (sampling by decision D21, unknown-opcode output by D20): the output record of a tick on an
unfaulted machine. `display` is present exactly when the tick executed a CLS or a DRW that did not fault, and then
is the whole buffer after it; `unknown_opcode` is present exactly when it executed an unknown word. -/
def Obligations.TickOutputsShowTheTick : Prop :=
  ∀ (inp : TickInput) (s t : State) (o : TickOutput), s.safe → tickPort inp s = .next (t, o) →
    tick inp s = .next t ∧
    o.soundActive = decide (0 < t.st.toNat) ∧ o.fault = t.fault ∧
    (∀ d, o.display = some d ↔
      d = t.disp ∧ t.safe ∧ s.mode = .running ∧ ∃ op, Memory.fetch16 s.mem s.pc.toNat = some op ∧
        (decode op = .cls ∨ ∃ x y n, decode op = .drw x y n)) ∧
    (∀ w, o.unknownOpcode = some w ↔
      s.mode = .running ∧ Memory.fetch16 s.mem s.pc.toNat = some w ∧ isUnknownWord w = true)

/-- R101: two ticks from one state with the same keys and any two random bytes agree in everything but the byte at
the `rand` port itself, unless the tick executes RND. -/
def Obligations.RandomByteReachesOnlyRnd : Prop :=
  ∀ (keys : Keys) (r₁ r₂ : Byte) (s t₁ t₂ : State),
    (s.safe → s.mode = .running → ∀ op x kk, Memory.fetch16 s.mem s.pc.toNat = some op → decode op ≠ .rnd x kk) →
    tick ⟨keys, r₁⟩ s = .next t₁ → tick ⟨keys, r₂⟩ s = .next t₂ →
    { t₁ with rand := 0 } = ({ t₂ with rand := 0 } : State)

/-- R242 (the convention of decision D25; the changes by R112 and R90): a finished state stays finished, and a
further tick changes only `keys`, `dirty`, DT, ST and the model's own port and bookkeeping fields. -/
def Obligations.FinishedStatesStayFinished : Prop :=
  ∀ (inp : TickInput) (s : State), s.finished → tick inp s = .next (s.begin inp) ∧ (s.begin inp).finished

/-! ### 10_state.md R33 and 60_exceptions.md: the whole machine -/

/-- R33, R22: the access matrix. Whatever instruction executes, without its own column no state is written. -/
def Obligations.OnlyTheAccessMatrixWrites : Prop :=
  ∀ (i : Instr) (s t : State), exec i s = .next t →
    (∀ z : Reg, writesReg i z = false → t.v[z.val] = s.v[z.val]) ∧
    ((∀ nnn, i ≠ .ldI nnn) → (∀ x, i ≠ .addIVx x) → (∀ x, i ≠ .ldFVx x) → t.index = s.index) ∧
    ((∀ x, i ≠ .ldBVx x) → (∀ x, i ≠ .ldMemVx x) → t.mem = s.mem) ∧
    ((∀ nnn, i ≠ .call nnn) → t.stack = s.stack ∧ (i ≠ .ret → t.sp = s.sp)) ∧
    ((∀ x, i ≠ .ldDtVx x) → t.dt = s.dt) ∧
    ((∀ x, i ≠ .ldStVx x) → t.st = s.st) ∧
    ((∀ x, i ≠ .ldVxK x) → t.mode = s.mode ∧ t.waitReg = s.waitReg) ∧
    (i ≠ .cls → (∀ x y n, i ≠ .drw x y n) → t.disp = s.disp ∧ t.dirty = s.dirty) ∧
    ((∀ op, i ≠ .unknown op) → t.unknownOpcode = s.unknownOpcode) ∧
    t.keys = s.keys ∧ t.rand = s.rand ∧ t.loadable = s.loadable ∧ t.hostTick = s.hostTick

/-- R201, R202, R205, R208, R209 (precision by decision D11, info by D12): an instruction raises exactly the fault of
R201's table, before any state change, and otherwise none. -/
def Obligations.InstructionsRaiseExactlyTheirFaults : Prop :=
  ∀ (i : Instr) (s : State),
    (∀ f, faultOf i s = some f → exec i s = .next { s with fault := some f }) ∧
    (faultOf i s = none → ∃ t, exec i s = .next t ∧ t.fault = s.fault)

/-- R205, R209 (decision D11): a tick that faults has made its start (key latch, cleared `dirty`, timers) and
written `fault`, and nothing else. -/
def Obligations.FaultsArePrecise : Prop :=
  ∀ (inp : TickInput) (s t : State), s.safe → tick inp s = .next t → ¬ t.safe →
    t = { s.begin inp with fault := t.fault }

/-! ### 41_control_flow.md -/

/-- R112: `Jump(zext_16(nnn))`, PC alone written. -/
def Obligations.JumpGoesToItsAddress : Prop :=
  ∀ (nnn : BitVec 12) (s : State),
    exec (.jp nnn) s = .next { s with pc := BitVec.ofNat 16 nnn.toNat }

/-- R118: the sum of nnn and V0, not reduced. -/
def Obligations.JumpWithOffsetAddsV0 : Prop :=
  ∀ (nnn : BitVec 12) (s : State), ∃ t, exec (.jpV0 nnn) s = .next t ∧
    t.pc.toNat = nnn.toNat + s.v[0].toNat ∧ t = { s with pc := t.pc }

/-- R113, R25, R203: a call with room pushes the address after it and jumps; with SP = 16 it raises StackOverflow
and changes nothing. -/
def Obligations.CallPushesTheReturnAddress : Prop :=
  ∀ (nnn : BitVec 12) (s : State),
    (s.sp.val < 16 → exec (.call nnn) s = .next { s with
      stack := s.stack.setIfInBounds s.sp.val (s.pc + 2)
      sp := Fin.ofNat 17 (s.sp.val + 1)
      pc := BitVec.ofNat 16 nnn.toNat }) ∧
    (s.sp.val = 16 → exec (.call nnn) s = .next { s with fault := some ⟨.stackOverflow, s.pc.toNat⟩ })

/-- R111, R25, R204: a return pops the newest live slot, which keeps its value, and jumps to it; with SP = 0 it raises
StackUnderflow and changes nothing. -/
def Obligations.ReturnPopsTheNewestAddress : Prop :=
  ∀ s : State,
    (∀ a, 0 < s.sp.val → s.stack[s.sp.val - 1]? = some a →
      exec .ret s = .next { s with sp := Fin.ofNat 17 (s.sp.val - 1), pc := a }) ∧
    (s.sp.val = 0 → exec .ret s = .next { s with fault := some ⟨.stackUnderflow, s.pc.toNat⟩ })

/-- R111, R113: a return after a call comes back to the address after the call, with the old SP and only the slot
used. -/
def Obligations.CallThenReturnComesBack : Prop :=
  ∀ (nnn : BitVec 12) (s : State) (p : Word), s.sp.val < 16 → ∃ t, exec (.call nnn) s = .next t ∧
    exec .ret { t with pc := p } = .next { s with
      stack := s.stack.setIfInBounds s.sp.val (s.pc + 2), pc := s.pc + 2 }

/-- R114 to R117. -/
def Obligations.RegisterSkipsTestTheirCondition : Prop :=
  ∀ (x y : Reg) (kk : Byte) (s : State),
    exec (.seImm x kk) s = .next { s with pc := if s.v[x.val] = kk then s.pc + 4 else s.pc + 2 } ∧
    exec (.sneImm x kk) s = .next { s with pc := if s.v[x.val] ≠ kk then s.pc + 4 else s.pc + 2 } ∧
    exec (.seReg x y) s = .next { s with pc := if s.v[x.val] = s.v[y.val] then s.pc + 4 else s.pc + 2 } ∧
    exec (.sneReg x y) s = .next { s with pc := if s.v[x.val] ≠ s.v[y.val] then s.pc + 4 else s.pc + 2 }

/-! ### 42_load_alu.md -/

/-- R130, R132 to R135: loads and bitwise operations write V[x] and PC, and VF only as the destination. -/
def Obligations.LoadsAndBitwiseOperationsWriteTheirResult : Prop :=
  ∀ (x y : Reg) (kk : Byte) (s : State),
    exec (.ldImm x kk) s = .next { s with v := s.v.set x.val kk, pc := s.pc + 2 } ∧
    exec (.ldReg x y) s = .next { s with v := s.v.set x.val s.v[y.val], pc := s.pc + 2 } ∧
    exec (.orReg x y) s = .next { s with v := s.v.set x.val (s.v[x.val] ||| s.v[y.val]), pc := s.pc + 2 } ∧
    exec (.andReg x y) s = .next { s with v := s.v.set x.val (s.v[x.val] &&& s.v[y.val]), pc := s.pc + 2 } ∧
    exec (.xorReg x y) s = .next { s with v := s.v.set x.val (s.v[x.val] ^^^ s.v[y.val]), pc := s.pc + 2 }

/-- R131: the sum modulo 256, no flag. -/
def Obligations.AddImmediateWrapsWithoutFlag : Prop :=
  ∀ (x : Reg) (kk : Byte) (s : State),
    exec (.addImm x kk) s = .next { s with
      v := s.v.set x.val (BitVec.ofNat 8 ((s.v[x.val].toNat + kk.toNat) % 256)), pc := s.pc + 2 }

/-- R137, R22: the sum modulo 256 to V[x], then the carry to VF, in that order also for x = 15 (the spec derives this
from the order of the source's statements; log 11). -/
def Obligations.AddRegistersWritesSumThenCarry : Prop :=
  ∀ (x y : Reg) (s : State),
    let sum := s.v[x.val].toNat + s.v[y.val].toNat
    exec (.addReg x y) s = .next { s with
      v := (s.v.set x.val (BitVec.ofNat 8 (sum % 256))).set 15 (if sum > 255 then 1 else 0), pc := s.pc + 2 }

/-- R138, R140, R22, R136: the flag first, strictly greater, then the difference modulo 256 of the registers as they
then stand (order by decision D10, log 11). -/
def Obligations.SubtractionsWriteFlagThenDifference : Prop :=
  ∀ (x y : Reg) (s : State),
    (let u := s.v.set 15 (if s.v[x.val].toNat > s.v[y.val].toNat then 1 else 0)
     exec (.sub x y) s = .next { s with
      v := u.set x.val (BitVec.ofNat 8 ((u[x.val].toNat + 256 - u[y.val].toNat) % 256)), pc := s.pc + 2 }) ∧
    (let u := s.v.set 15 (if s.v[y.val].toNat > s.v[x.val].toNat then 1 else 0)
     exec (.subn x y) s = .next { s with
      v := u.set x.val (BitVec.ofNat 8 ((u[y.val].toNat + 256 - u[x.val].toNat) % 256)), pc := s.pc + 2 })

/-- R139, R141, R79, R22: the bit shifted out to VF, then the shift by one of V[x] as it then stands (order by
decision D10, log 11); y is ignored. -/
def Obligations.ShiftsWriteTheBitShiftedOut : Prop :=
  ∀ (x y : Reg) (s : State),
    (let u := s.v.set 15 (BitVec.ofNat 8 (s.v[x.val].toNat % 2))
     exec (.shr x y) s = .next { s with
      v := u.set x.val (BitVec.ofNat 8 (u[x.val].toNat / 2)), pc := s.pc + 2 }) ∧
    (let u := s.v.set 15 (BitVec.ofNat 8 (s.v[x.val].toNat / 128))
     exec (.shl x y) s = .next { s with
      v := u.set x.val (BitVec.ofNat 8 (u[x.val].toNat * 2 % 256)), pc := s.pc + 2 })

/-- R143 (from decision D10, log 11): what the flag-writing ALU instructions leave when VF is an operand. Rows of the
table: x = 15 with another y, y = 15 with another x, and both. -/
def Obligations.VfAsOperandFollowsTheTable : Prop :=
  ∀ (z : Reg) (s : State), z ≠ 15 →
    let a := s.v[15].toNat
    let b := s.v[z.val].toNat
    let byte (k : Nat) : Byte := BitVec.ofNat 8 k
    let result (w : Vector Byte 16) : Result := .next { s with v := w, pc := s.pc + 2 }
    let carry (k : Nat) : Byte := if k > 255 then 1 else 0
    let gt (p q : Nat) : Nat := if p > q then 1 else 0
    exec (.addReg 15 z) s = result (s.v.set 15 (carry (a + b))) ∧
    exec (.addReg z 15) s = result ((s.v.set z.val (byte ((b + a) % 256))).set 15 (carry (a + b))) ∧
    exec (.addReg 15 15) s = result (s.v.set 15 (carry (2 * a))) ∧
    exec (.sub 15 z) s = result (s.v.set 15 (byte ((gt a b + 256 - b) % 256))) ∧
    exec (.sub z 15) s = result ((s.v.set z.val (byte ((b + 256 - gt b a) % 256))).set 15 (byte (gt b a))) ∧
    exec (.sub 15 15) s = result (s.v.set 15 0) ∧
    exec (.subn 15 z) s = result (s.v.set 15 (byte ((b + 256 - gt b a) % 256))) ∧
    exec (.subn z 15) s = result ((s.v.set z.val (byte ((gt a b + 256 - b) % 256))).set 15 (byte (gt a b))) ∧
    exec (.subn 15 15) s = result (s.v.set 15 0) ∧
    (∀ y, exec (.shr 15 y) s = result (s.v.set 15 0)) ∧
    (∀ y, exec (.shl 15 y) s = result (s.v.set 15 (byte (2 * (a / 128)))))

/-- R142 (the byte at the `rand` port, decision D19, log 1): RND writes it AND kk, for every byte. -/
def Obligations.RandomWritesThePortByteMasked : Prop :=
  ∀ (x : Reg) (kk : Byte) (s : State),
    exec (.rnd x kk) s = .next { s with v := s.v.set x.val (s.rand &&& kk), pc := s.pc + 2 }

/-! ### 43_index_memory.md -/

/-- R150. -/
def Obligations.LoadIndexTakesTheAddress : Prop :=
  ∀ (nnn : BitVec 12) (s : State),
    exec (.ldI nnn) s = .next { s with index := BitVec.ofNat 16 nnn.toNat, pc := s.pc + 2 }

/-- R151, R22, R23 (16 bits by decision D2, threshold by D18): I modulo 65536, then VF from the new I; the flag is
written last also for x = 15. -/
def Obligations.AddToIndexSetsTheThresholdFlag : Prop :=
  ∀ (x : Reg) (s : State),
    let i := (s.index.toNat + s.v[x.val].toNat) % 65536
    exec (.addIVx x) s = .next { s with
      index := BitVec.ofNat 16 i, v := s.v.set 15 (if i > 0x0F00 then 1 else 0), pc := s.pc + 2 }

/-- R152, R36: five times V[x], no mask and no wrap. -/
def Obligations.FontAddressIsFiveTimesTheDigit : Prop :=
  ∀ (x : Reg) (s : State), ∃ t, exec (.ldFVx x) s = .next t ∧ t.index.toNat = 5 * s.v[x.val].toNat ∧
    t = { s with index := t.index, pc := s.pc + 2 }

/-- R153: the three digits to I, I + 1, I + 2; with any of them above 0xFFF a MemoryFault and nothing written. -/
def Obligations.BcdStoreWritesThreeDigits : Prop :=
  ∀ (x : Reg) (s : State), Memory.wf s.mem = true →
    let a := s.index.toNat
    let b := s.v[x.val].toNat
    (a + 2 ≤ 0xFFF → ∃ m, exec (.ldBVx x) s = .next { s with mem := m, pc := s.pc + 2 } ∧
      Memory.wf m = true ∧
      Memory.read m a = some (BitVec.ofNat 8 (b / 100)) ∧
      Memory.read m (a + 1) = some (BitVec.ofNat 8 (b / 10 % 10)) ∧
      Memory.read m (a + 2) = some (BitVec.ofNat 8 (b % 10)) ∧
      ∀ c, c ≠ a → c ≠ a + 1 → c ≠ a + 2 → Memory.read m c = Memory.read s.mem c) ∧
    (0xFFF < a + 2 → exec (.ldBVx x) s = .next { s with
      fault := some ⟨.memoryFault, if 0xFFF < a then a else 0x1000⟩ })

/-- R154 (I not advanced: the spec's derivation): V0 to Vx to I and up; with any address above 0xFFF a MemoryFault
and nothing written. -/
def Obligations.StoreRegistersWritesTheRun : Prop :=
  ∀ (x : Reg) (s : State), Memory.wf s.mem = true →
    let a := s.index.toNat
    (a + x.val ≤ 0xFFF → ∃ m, exec (.ldMemVx x) s = .next { s with mem := m, pc := s.pc + 2 } ∧
      Memory.wf m = true ∧
      (∀ k : Reg, k ≤ x → Memory.read m (a + k.val) = some s.v[k.val]) ∧
      ∀ c, (c < a ∨ a + x.val < c) → Memory.read m c = Memory.read s.mem c) ∧
    (0xFFF < a + x.val → exec (.ldMemVx x) s = .next { s with
      fault := some ⟨.memoryFault, if 0xFFF < a then a else 0x1000⟩ })

/-- R155: V0 to Vx from I and up, the registers above x untouched; with any address above 0xFFF a MemoryFault and no
register changes. -/
def Obligations.LoadRegistersReadsTheRun : Prop :=
  ∀ (x : Reg) (s : State),
    let a := s.index.toNat
    (a + x.val ≤ 0xFFF → ∃ w, exec (.ldVxMem x) s = .next { s with v := w, pc := s.pc + 2 } ∧
      ∀ k : Reg, some w[k.val] = if k ≤ x then Memory.read s.mem (a + k.val) else some s.v[k.val]) ∧
    (0xFFF < a + x.val → exec (.ldVxMem x) s = .next { s with
      fault := some ⟨.memoryFault, if 0xFFF < a then a else 0x1000⟩ })

/-- R156 (decision D17, log 14): the compatibility form, which the parameter leaves off: every register V0 to Vx
takes the byte at I + 1. -/
def Obligations.CompatibilityLoadRepeatsOneByte : Prop :=
  ∀ (x : Reg) (s : State),
    let a := s.index.toNat
    (∀ b, Memory.read s.mem (a + 1) = some b →
      ∃ w, s.loadRegsCompat x = .next { s with v := w, pc := s.pc + 2 } ∧
        ∀ k : Reg, w[k.val] = if k ≤ x then b else s.v[k.val]) ∧
    (0xFFF < a + 1 → s.loadRegsCompat x = .next { s with fault := some ⟨.memoryFault, a + 1⟩ })

/-- R154, R155: registers stored and loaded back are the registers they were. -/
def Obligations.StoredRegistersLoadBack : Prop :=
  ∀ (x : Reg) (s t : State) (w : Vector Byte 16), Memory.wf s.mem = true → s.index.toNat + x.val ≤ 0xFFF →
    exec (.ldMemVx x) s = .next t → (∀ k : Reg, x < k → w[k.val] = s.v[k.val]) →
    exec (.ldVxMem x) { t with v := w } = .next { t with pc := t.pc + 2 }

/-- R62, R52 (the spec's derivation), for LD [I], Vx with every x and for LD B, Vx: after a store that fits, the fetch
at EVERY address c finds the word of the bytes as the store left them (new inside the run, old outside it, so the
fetches that overlap its ends are among them), and so executes every later tick that finds that memory, the next one
(u = t) among them. -/
def Obligations.StoresAreSeenByTheNextFetch : Prop :=
  ∀ (x : Reg) (s : State), Memory.wf s.mem = true →
    let a := s.index.toNat
    let b := s.v[x.val].toNat
    let digits : List Byte := [BitVec.ofNat 8 (b / 100), BitVec.ofNat 8 (b / 10 % 10), BitVec.ofNat 8 (b % 10)]
    let seen (i : Instr) (bs : List Byte) : Prop :=
      ∃ t, exec i s = .next t ∧ t = { s with mem := t.mem, pc := s.pc + 2 } ∧
        ∀ c, c ≤ 0xFFE →
          let word : Word := byteAfter s.mem a bs c ++ byteAfter s.mem a bs (c + 1)
          Memory.fetch16 t.mem c = some word ∧
          ∀ (inp : TickInput) (u : State), u.mem = t.mem → u.pc.toNat = c → u.safe → u.mode = .running →
            tick inp u = exec (decode word) (u.begin inp)
    (a + x.val ≤ 0xFFF → seen (.ldMemVx x) (s.v.toList.take (x.val + 1))) ∧
    (a + 2 ≤ 0xFFF → seen (.ldBVx x) digits)

/-! ### 44_display.md -/

/-- R171: every pixel 0 and `dirty`, VF and everything else unchanged, and the `display` output present. -/
def Obligations.ClearBlanksTheDisplay : Prop :=
  ∀ s : State, ∃ d t, exec .cls s = .next t ∧ t = { s with disp := d, dirty := true, pc := s.pc + 2 } ∧
    (∀ r c, Display.pixel d r c = false) ∧ t.outputs.display = some d

/-- R173, R202 (b), R209, for every x and y, VF among them (case (f), decision D10, log 11): DRW is the double loop
over the buffer and the collision flag, each coordinate read as the loop reads it; a sprite byte above 0xFFF is a
MemoryFault and nothing changes. -/
def Obligations.DrawIsThePixelLoop : Prop :=
  ∀ (x y : Reg) (n : BitVec 4) (s : State),
    let a := s.index.toNat
    let sprite := (List.range n.toNat).map fun k => Memory.byteAt s.mem (a + k)
    let p := blitRows (coordinate s x) (coordinate s y) 0 sprite (s.disp, false)
    (n = 0 ∨ a + (n.toNat - 1) ≤ 0xFFF → exec (.drw x y n) s = .next { s with
      disp := p.1, v := s.v.set 15 (if p.2 then 1 else 0), dirty := true, pc := s.pc + 2 }) ∧
    (n ≠ 0 → 0xFFF < a + (n.toNat - 1) → exec (.drw x y n) s = .next { s with
      fault := some ⟨.memoryFault, if 0xFFF < a then a else 0x1000⟩ })

/-- R173 case (a): with x and y other than VF a draw is the parallel blit: every pixel p becomes p xor its sprite bit,
and VF is 1 exactly when some lit pixel meets a sprite bit. -/
def Obligations.DrawIsTheParallelBlit : Prop :=
  ∀ (x y : Reg) (n : BitVec 4) (s : State), x ≠ 15 → y ≠ 15 →
    (n = 0 ∨ s.index.toNat + (n.toNat - 1) ≤ 0xFFF) →
    let bit := spriteBit s s.v[x.val].toNat s.v[y.val].toNat n.toNat
    ∃ t, exec (.drw x y n) s = .next t ∧
      (∀ r c, Display.pixel t.disp r c = (Display.pixel s.disp r c ^^ bit r c)) ∧
      t = { s with
        disp := t.disp, dirty := true, pc := s.pc + 2
        v := s.v.set 15 (if ∃ r c, (Display.pixel s.disp r c && bit r c) = true then 1 else 0) }

/-- R174 (1), (2): two identical draws leave the buffer as it was, and the second reports a collision exactly when
the first lit a pixel. -/
def Obligations.DrawingTwiceRestoresTheDisplay : Prop :=
  ∀ (x y : Reg) (n : BitVec 4) (s t u : State), x ≠ 15 → y ≠ 15 →
    (n = 0 ∨ s.index.toNat + (n.toNat - 1) ≤ 0xFFF) →
    exec (.drw x y n) s = .next t → exec (.drw x y n) t = .next u →
    u.disp = s.disp ∧
    (u.v[15] = 1 ↔ ∃ r c, Display.pixel s.disp r c = false ∧ Display.pixel t.disp r c = true)

/-! ### 45_keys_timers.md -/

/-- R185: once per tick, in both modes, each timer above 0 goes down by 1, and only LD DT and LD ST write one
otherwise. A tick on a faulted machine does not count: R99, the spec's decision D22 (log 5). -/
def Obligations.TimersCountDownEveryTick : Prop :=
  ∀ (inp : TickInput) (s t : State), tick inp s = .next t →
    (¬ s.safe → t.dt = s.dt ∧ t.st = s.st) ∧
    (s.safe → (s.mode = .running → ∀ op x, Memory.fetch16 s.mem s.pc.toNat = some op → decode op ≠ .ldDtVx x) →
      t.dt.toNat = s.dt.toNat - 1) ∧
    (s.safe → (s.mode = .running → ∀ op x, Memory.fetch16 s.mem s.pc.toNat = some op → decode op ≠ .ldStVx x) →
      t.st.toNat = s.st.toNat - 1)

/-- R186, R187, R206 (KeyIndexFault by decision D14, log 13): the key tests, with a key number and above 15. -/
def Obligations.KeyTestsSkipOnTheirKey : Prop :=
  ∀ (x : Reg) (s : State),
    (∀ down, s.v[x.val].toNat ≤ 15 → s.keys[s.v[x.val].toNat]? = some down →
      exec (.skp x) s = .next { s with pc := if down then s.pc + 4 else s.pc + 2 } ∧
      exec (.sknp x) s = .next { s with pc := if down then s.pc + 2 else s.pc + 4 }) ∧
    (15 < s.v[x.val].toNat →
      exec (.skp x) s = .next { s with fault := some ⟨.keyIndexFault, s.v[x.val].toNat⟩ } ∧
      exec (.sknp x) s = .next { s with fault := some ⟨.keyIndexFault, s.v[x.val].toNat⟩ })

/-- R188, R191, R192: the timer registers are read and written whole. -/
def Obligations.TimerRegistersTransfer : Prop :=
  ∀ (x : Reg) (s : State),
    exec (.ldVxDt x) s = .next { s with v := s.v.set x.val s.dt, pc := s.pc + 2 } ∧
    exec (.ldDtVx x) s = .next { s with dt := s.v[x.val], pc := s.pc + 2 } ∧
    exec (.ldStVx x) s = .next { s with st := s.v[x.val], pc := s.pc + 2 }

/-- R189: the wait is entered, PC and every V register stay. -/
def Obligations.WaitForKeyEntersTheWait : Prop :=
  ∀ (x : Reg) (s : State),
    exec (.ldVxK x) s = .next { s with mode := .waitingForKey, waitReg := x }

/-- R190, R97, R194 (PC + 2 at delivery by decision D9, log 12): the tick of a waiting machine. -/
def Obligations.WaitEndsOnTheLowestKey : Prop :=
  ∀ (inp : TickInput) (s : State), s.safe → s.mode = .waitingForKey →
    ((∀ k : Reg, inp.keys[k.val] = false) → tick inp s = .next (s.begin inp)) ∧
    (∀ k : Reg, inp.keys[k.val] = true → (∀ j : Reg, j < k → inp.keys[j.val] = false) →
      tick inp s = .next { s.begin inp with
        v := s.v.set s.waitReg.val (BitVec.ofNat 8 k.val), mode := .running, pc := s.pc + 2 })

/-- R195, R194, R185: the whole wait. The tick that executes LD Vx, K, any number of ticks with no key down, and one
with lowest key k down: V[x] is k, PC is past the instruction (decision D9, log 12), the machine runs, the timers have
run all along. Of the model's own fields `rand`, `unknownOpcode`, `loadable` and `hostTick` follow the ticks (logs 2,
3, 4 and 1). -/
def Obligations.WaitRoundTripDeliversTheKey : Prop :=
  ∀ (s : State) (op : Word) (x k : Reg) (first last : TickInput) (idle : List TickInput),
    s.safe → s.mode = .running → Memory.fetch16 s.mem s.pc.toNat = some op → decode op = .ldVxK x →
    (∀ inp ∈ idle, ∀ j : Reg, inp.keys[j.val] = false) →
    last.keys[k.val] = true → (∀ j : Reg, j < k → last.keys[j.val] = false) →
    ∃ t, ticks (first :: (idle ++ [last])) s = .next t ∧
      t = { s with
        v := s.v.set x.val (BitVec.ofNat 8 k.val), pc := s.pc + 2, waitReg := x
        dt := t.dt, st := t.st, keys := last.keys, rand := last.rand
        dirty := false, unknownOpcode := none, loadable := false, hostTick := t.hostTick } ∧
      t.dt.toNat = s.dt.toNat - (idle.length + 2) ∧ t.st.toNat = s.st.toNat - (idle.length + 2)
end

