-- ==== Sys2Proof/Laws/Decode.lean ====
section
/-! SUPPORT. The fields of an encoded word are the operands it was built from, a word is built from its fields,
and the fixed bits of each format. -/

namespace Sys2Proof

/-! ### The bits of the words -/

theorem getLsbD_wordA (c : BitVec 4) (nnn : BitVec 12) (i : Nat) :
    (wordA c nnn).getLsbD i = if i < 12 then nnn.getLsbD i else c.getLsbD (i - 12) :=
  BitVec.getLsbD_append

theorem getLsbD_nibbleByte (a : BitVec 4) (b : BitVec 8) (i : Nat) :
    (a ++ b : BitVec 12).getLsbD i = if i < 8 then b.getLsbD i else a.getLsbD (i - 8) :=
  BitVec.getLsbD_append

theorem getLsbD_nibbles (a b : BitVec 4) (i : Nat) :
    (a ++ b : BitVec 8).getLsbD i = if i < 4 then b.getLsbD i else a.getLsbD (i - 4) :=
  BitVec.getLsbD_append

theorem getLsbD_wordOfBytes (hi lo : Byte) (i : Nat) :
    (wordOfBytes hi lo).getLsbD i = if i < 8 then lo.getLsbD i else hi.getLsbD (i - 8) :=
  BitVec.getLsbD_append

theorem getLsbD_wordXK (c : BitVec 4) (x : Reg) (kk : Byte) (i : Nat) :
    (wordXK c x kk).getLsbD i =
      if i < 12 then (if i < 8 then kk.getLsbD i else (BitVec.ofFin (w := 4) x).getLsbD (i - 8))
      else c.getLsbD (i - 12) := by
  rw [← getLsbD_nibbleByte]
  exact getLsbD_wordA _ _ _

theorem getLsbD_wordXYN (c : BitVec 4) (x y : Reg) (n : BitVec 4) (i : Nat) :
    (wordXYN c x y n).getLsbD i =
      if i < 12 then
        (if i < 8 then (if i < 4 then n.getLsbD i else (BitVec.ofFin (w := 4) y).getLsbD (i - 4))
        else (BitVec.ofFin (w := 4) x).getLsbD (i - 8))
      else c.getLsbD (i - 12) := by
  rw [← getLsbD_nibbles]
  exact getLsbD_wordXK _ _ _ _

/-! ### The fields of the words -/

theorem fieldC_wordA (c : BitVec 4) (nnn : BitVec 12) : fieldC (wordA c nnn) = c := by
  refine BitVec.eq_of_getLsbD_eq fun i hi => ?_
  rw [fieldC, BitVec.getLsbD_extractLsb', getLsbD_wordA, if_neg (by omega)]
  simp [hi]

theorem fieldNnn_wordA (c : BitVec 4) (nnn : BitVec 12) : fieldNnn (wordA c nnn) = nnn := by
  refine BitVec.eq_of_getLsbD_eq fun i hi => ?_
  rw [fieldNnn, BitVec.getLsbD_extractLsb', getLsbD_wordA, if_pos (by omega)]
  simp [hi]

/-- Formats XK and X are format A with the 12 low bits split. -/
theorem fieldC_wordXK (c : BitVec 4) (x : Reg) (kk : Byte) : fieldC (wordXK c x kk) = c :=
  fieldC_wordA c _

theorem fieldX_wordXK (c : BitVec 4) (x : Reg) (kk : Byte) : fieldX (wordXK c x kk) = x := by
  have h : (wordXK c x kk).extractLsb' 8 4 = BitVec.ofFin (w := 4) x := by
    refine BitVec.eq_of_getLsbD_eq fun i hi => ?_
    rw [BitVec.getLsbD_extractLsb', getLsbD_wordXK, if_pos (by omega), if_neg (by omega),
      Nat.add_sub_cancel_left, decide_eq_true hi, Bool.true_and]
  rw [fieldX, h]

theorem fieldKk_wordXK (c : BitVec 4) (x : Reg) (kk : Byte) : fieldKk (wordXK c x kk) = kk := by
  refine BitVec.eq_of_getLsbD_eq fun i hi => ?_
  rw [fieldKk, BitVec.getLsbD_extractLsb', getLsbD_wordXK, if_pos (by omega), if_pos (by omega)]
  simp [hi]

/-- Formats XY and XYN are format XK with the byte split. -/
theorem fieldC_wordXYN (c : BitVec 4) (x y : Reg) (n : BitVec 4) : fieldC (wordXYN c x y n) = c :=
  fieldC_wordA c _

theorem fieldX_wordXYN (c : BitVec 4) (x y : Reg) (n : BitVec 4) : fieldX (wordXYN c x y n) = x :=
  fieldX_wordXK c x _

theorem fieldY_wordXYN (c : BitVec 4) (x y : Reg) (n : BitVec 4) : fieldY (wordXYN c x y n) = y := by
  have h : (wordXYN c x y n).extractLsb' 4 4 = BitVec.ofFin (w := 4) y := by
    refine BitVec.eq_of_getLsbD_eq fun i hi => ?_
    rw [BitVec.getLsbD_extractLsb', getLsbD_wordXYN, if_pos (by omega), if_pos (by omega),
      if_neg (by omega), Nat.add_sub_cancel_left, decide_eq_true hi, Bool.true_and]
  rw [fieldY, h]

theorem fieldN_wordXYN (c : BitVec 4) (x y : Reg) (n : BitVec 4) : fieldN (wordXYN c x y n) = n := by
  refine BitVec.eq_of_getLsbD_eq fun i hi => ?_
  rw [fieldN, BitVec.getLsbD_extractLsb', getLsbD_wordXYN, if_pos (by omega), if_pos (by omega),
    if_pos (by omega)]
  simp [hi]

/-! ### A word is built from its fields -/

theorem wordA_fields (op : Word) : wordA (fieldC op) (fieldNnn op) = op := by
  refine BitVec.eq_of_getLsbD_eq fun i hi => ?_
  rw [getLsbD_wordA, fieldNnn, fieldC, BitVec.getLsbD_extractLsb', BitVec.getLsbD_extractLsb']
  split
  · simp [*]
  · rw [show 12 + (i - 12) = i by omega, decide_eq_true (by omega), Bool.true_and]

theorem wordXK_fields (op : Word) : wordXK (fieldC op) (fieldX op) (fieldKk op) = op := by
  refine BitVec.eq_of_getLsbD_eq fun i hi => ?_
  rw [getLsbD_wordXK, show BitVec.ofFin (w := 4) (fieldX op) = op.extractLsb' 8 4 from rfl, fieldKk, fieldC,
    BitVec.getLsbD_extractLsb', BitVec.getLsbD_extractLsb', BitVec.getLsbD_extractLsb']
  split
  · split
    · simp [*]
    · rw [show 8 + (i - 8) = i by omega, decide_eq_true (by omega), Bool.true_and]
  · rw [show 12 + (i - 12) = i by omega, decide_eq_true (by omega), Bool.true_and]

theorem wordXYN_fields (op : Word) : wordXYN (fieldC op) (fieldX op) (fieldY op) (fieldN op) = op := by
  have h : (BitVec.ofFin (w := 4) (fieldY op) ++ fieldN op : BitVec 8) = fieldKk op := by
    refine BitVec.eq_of_getLsbD_eq fun i hi => ?_
    rw [getLsbD_nibbles, show BitVec.ofFin (w := 4) (fieldY op) = op.extractLsb' 4 4 from rfl, fieldN, fieldKk,
      BitVec.getLsbD_extractLsb', BitVec.getLsbD_extractLsb', BitVec.getLsbD_extractLsb']
    split
    · simp [*]
    · rw [show 4 + (i - 4) = i by omega, decide_eq_true (by omega), decide_eq_true (by omega), Nat.zero_add]
  calc wordXYN (fieldC op) (fieldX op) (fieldY op) (fieldN op)
      = wordXK (fieldC op) (fieldX op) (BitVec.ofFin (w := 4) (fieldY op) ++ fieldN op : BitVec 8) := rfl
    _ = op := by rw [h, wordXK_fields]

/-- The two bytes of a word are the word. -/
theorem wordOfBytes_bytes (w : Word) : wordOfBytes (highByte w) (lowByte w) = w := by
  refine BitVec.eq_of_getLsbD_eq fun i hi => ?_
  rw [getLsbD_wordOfBytes, lowByte, highByte, BitVec.getLsbD_extractLsb', BitVec.getLsbD_extractLsb']
  split
  · simp [*]
  · rw [show 8 + (i - 8) = i by omega, decide_eq_true (by omega), Bool.true_and]

/-! ### The fixed bits of the formats (30_encoding.md R72) -/

/-- The fixed bits of format A, XK and XYN. -/
theorem wordA_and_mask (c : BitVec 4) (nnn : BitVec 12) : wordA c nnn &&& 0xF000#16 = wordA c 0 := by
  refine BitVec.eq_of_getLsbD_eq fun i hi => ?_
  rw [BitVec.getLsbD_and, getLsbD_wordA, getLsbD_wordA]
  interval_cases i <;> simp

/-- The fixed bits of format X. -/
theorem wordXK_and_maskX (c : BitVec 4) (x : Reg) (kk : Byte) : wordXK c x kk &&& 0xF0FF#16 = wordXK c 0 kk := by
  refine BitVec.eq_of_getLsbD_eq fun i hi => ?_
  rw [BitVec.getLsbD_and, getLsbD_wordXK, getLsbD_wordXK]
  interval_cases i <;> simp

/-- The fixed bits of format XY. -/
theorem wordXYN_and_maskXY (c : BitVec 4) (x y : Reg) (n : BitVec 4) :
    wordXYN c x y n &&& 0xF00F#16 = wordXYN c 0 0 n := by
  refine BitVec.eq_of_getLsbD_eq fun i hi => ?_
  rw [BitVec.getLsbD_and, getLsbD_wordXYN, getLsbD_wordXYN]
  interval_cases i <;> simp

/-! ### The masks read the fields -/

theorem and_maskA (op : Word) : op &&& 0xF000#16 = wordA (fieldC op) 0 := by
  conv_lhs => rw [← wordA_fields op]
  exact wordA_and_mask _ _

theorem and_maskXY (op : Word) : op &&& 0xF00F#16 = wordXYN (fieldC op) 0 0 (fieldN op) := by
  conv_lhs => rw [← wordXYN_fields op]
  exact wordXYN_and_maskXY _ _ _ _

theorem and_maskX (op : Word) : op &&& 0xF0FF#16 = wordXK (fieldC op) 0 (fieldKk op) := by
  conv_lhs => rw [← wordXK_fields op]
  exact wordXK_and_maskX _ _ _

theorem and_maskE (op : Word) : op &&& 0xFFFF#16 = op := BitVec.and_allOnes

/-- A row that fixes nibble 1 is selected by that nibble. -/
theorem selectsA_iff (op : Word) (c : BitVec 4) : op &&& 0xF000#16 = wordA c 0 ↔ fieldC op = c := by
  rw [and_maskA]
  constructor
  · intro h
    simpa only [fieldC_wordA] using congrArg fieldC h
  · rintro rfl
    rfl

/-- A row that fixes nibbles 1 and 4 is selected by them. -/
theorem selectsXY_iff (op : Word) (c n : BitVec 4) :
    op &&& 0xF00F#16 = wordXYN c 0 0 n ↔ fieldC op = c ∧ fieldN op = n := by
  rw [and_maskXY]
  constructor
  · intro h
    exact ⟨by simpa only [fieldC_wordXYN] using congrArg fieldC h,
      by simpa only [fieldN_wordXYN] using congrArg fieldN h⟩
  · rintro ⟨rfl, rfl⟩
    rfl

/-- A row that fixes nibble 1 and the low byte is selected by them. -/
theorem selectsX_iff (op : Word) (c : BitVec 4) (kk : Byte) :
    op &&& 0xF0FF#16 = wordXK c 0 kk ↔ fieldC op = c ∧ fieldKk op = kk := by
  rw [and_maskX]
  constructor
  · intro h
    exact ⟨by simpa only [fieldC_wordXK] using congrArg fieldC h,
      by simpa only [fieldKk_wordXK] using congrArg fieldKk h⟩
  · rintro ⟨rfl, rfl⟩
    rfl

end Sys2Proof
end

