-- ==== Sys2Proof/Laws/State.lean ====
section
/-! SUPPORT. What each update of the state does to each field, by `rfl`, so that no proof unfolds a record
update. -/

namespace Sys2Proof.Machine

variable (s : State)


/-! ### `State.writeV` -/

@[simp] theorem State.writeV_mem (x : Reg) (b : Byte) : (s.writeV x b).mem = s.mem := rfl
@[simp] theorem State.writeV_v (x : Reg) (b : Byte) : (s.writeV x b).v = s.v.set x.val b := rfl
@[simp] theorem State.writeV_index (x : Reg) (b : Byte) : (s.writeV x b).index = s.index := rfl
@[simp] theorem State.writeV_pc (x : Reg) (b : Byte) : (s.writeV x b).pc = s.pc := rfl
@[simp] theorem State.writeV_stack (x : Reg) (b : Byte) : (s.writeV x b).stack = s.stack := rfl
@[simp] theorem State.writeV_sp (x : Reg) (b : Byte) : (s.writeV x b).sp = s.sp := rfl
@[simp] theorem State.writeV_dt (x : Reg) (b : Byte) : (s.writeV x b).dt = s.dt := rfl
@[simp] theorem State.writeV_st (x : Reg) (b : Byte) : (s.writeV x b).st = s.st := rfl
@[simp] theorem State.writeV_keys (x : Reg) (b : Byte) : (s.writeV x b).keys = s.keys := rfl
@[simp] theorem State.writeV_mode (x : Reg) (b : Byte) : (s.writeV x b).mode = s.mode := rfl
@[simp] theorem State.writeV_waitReg (x : Reg) (b : Byte) : (s.writeV x b).waitReg = s.waitReg := rfl
@[simp] theorem State.writeV_disp (x : Reg) (b : Byte) : (s.writeV x b).disp = s.disp := rfl
@[simp] theorem State.writeV_dirty (x : Reg) (b : Byte) : (s.writeV x b).dirty = s.dirty := rfl
@[simp] theorem State.writeV_fault (x : Reg) (b : Byte) : (s.writeV x b).fault = s.fault := rfl
@[simp] theorem State.writeV_rand (x : Reg) (b : Byte) : (s.writeV x b).rand = s.rand := rfl
@[simp] theorem State.writeV_unknownOpcode (x : Reg) (b : Byte) : (s.writeV x b).unknownOpcode = s.unknownOpcode := rfl
@[simp] theorem State.writeV_loadable (x : Reg) (b : Byte) : (s.writeV x b).loadable = s.loadable := rfl
@[simp] theorem State.writeV_hostTick (x : Reg) (b : Byte) : (s.writeV x b).hostTick = s.hostTick := rfl

/-! ### `State.flow` -/

@[simp] theorem State.flow_mem (d : Flow) : (s.flow d).mem = s.mem := by cases d <;> rfl
@[simp] theorem State.flow_v (d : Flow) : (s.flow d).v = s.v := by cases d <;> rfl
@[simp] theorem State.flow_index (d : Flow) : (s.flow d).index = s.index := by cases d <;> rfl
@[simp] theorem State.flow_stack (d : Flow) : (s.flow d).stack = s.stack := by cases d <;> rfl
@[simp] theorem State.flow_sp (d : Flow) : (s.flow d).sp = s.sp := by cases d <;> rfl
@[simp] theorem State.flow_dt (d : Flow) : (s.flow d).dt = s.dt := by cases d <;> rfl
@[simp] theorem State.flow_st (d : Flow) : (s.flow d).st = s.st := by cases d <;> rfl
@[simp] theorem State.flow_keys (d : Flow) : (s.flow d).keys = s.keys := by cases d <;> rfl
@[simp] theorem State.flow_mode (d : Flow) : (s.flow d).mode = s.mode := by cases d <;> rfl
@[simp] theorem State.flow_waitReg (d : Flow) : (s.flow d).waitReg = s.waitReg := by cases d <;> rfl
@[simp] theorem State.flow_disp (d : Flow) : (s.flow d).disp = s.disp := by cases d <;> rfl
@[simp] theorem State.flow_dirty (d : Flow) : (s.flow d).dirty = s.dirty := by cases d <;> rfl
@[simp] theorem State.flow_fault (d : Flow) : (s.flow d).fault = s.fault := by cases d <;> rfl
@[simp] theorem State.flow_rand (d : Flow) : (s.flow d).rand = s.rand := by cases d <;> rfl
@[simp] theorem State.flow_unknownOpcode (d : Flow) : (s.flow d).unknownOpcode = s.unknownOpcode := by cases d <;> rfl
@[simp] theorem State.flow_loadable (d : Flow) : (s.flow d).loadable = s.loadable := by cases d <;> rfl
@[simp] theorem State.flow_hostTick (d : Flow) : (s.flow d).hostTick = s.hostTick := by cases d <;> rfl
@[simp] theorem State.flow_next_pc : (s.flow .next).pc = s.pc + 2 := rfl
@[simp] theorem State.flow_skip_pc : (s.flow .skip).pc = s.pc + 4 := rfl
@[simp] theorem State.flow_jump_pc (a : Word) : (s.flow (.jump a)).pc = a := rfl
@[simp] theorem State.flow_hold_pc : (s.flow .hold).pc = s.pc := rfl

/-! ### `State.skipIf` -/

@[simp] theorem State.skipIf_mem (c : Bool) : (s.skipIf c).mem = s.mem := by cases c <;> rfl
@[simp] theorem State.skipIf_v (c : Bool) : (s.skipIf c).v = s.v := by cases c <;> rfl
@[simp] theorem State.skipIf_index (c : Bool) : (s.skipIf c).index = s.index := by cases c <;> rfl
@[simp] theorem State.skipIf_stack (c : Bool) : (s.skipIf c).stack = s.stack := by cases c <;> rfl
@[simp] theorem State.skipIf_sp (c : Bool) : (s.skipIf c).sp = s.sp := by cases c <;> rfl
@[simp] theorem State.skipIf_dt (c : Bool) : (s.skipIf c).dt = s.dt := by cases c <;> rfl
@[simp] theorem State.skipIf_st (c : Bool) : (s.skipIf c).st = s.st := by cases c <;> rfl
@[simp] theorem State.skipIf_keys (c : Bool) : (s.skipIf c).keys = s.keys := by cases c <;> rfl
@[simp] theorem State.skipIf_mode (c : Bool) : (s.skipIf c).mode = s.mode := by cases c <;> rfl
@[simp] theorem State.skipIf_waitReg (c : Bool) : (s.skipIf c).waitReg = s.waitReg := by cases c <;> rfl
@[simp] theorem State.skipIf_disp (c : Bool) : (s.skipIf c).disp = s.disp := by cases c <;> rfl
@[simp] theorem State.skipIf_dirty (c : Bool) : (s.skipIf c).dirty = s.dirty := by cases c <;> rfl
@[simp] theorem State.skipIf_fault (c : Bool) : (s.skipIf c).fault = s.fault := by cases c <;> rfl
@[simp] theorem State.skipIf_rand (c : Bool) : (s.skipIf c).rand = s.rand := by cases c <;> rfl
@[simp] theorem State.skipIf_unknownOpcode (c : Bool) : (s.skipIf c).unknownOpcode = s.unknownOpcode := by cases c <;> rfl
@[simp] theorem State.skipIf_loadable (c : Bool) : (s.skipIf c).loadable = s.loadable := by cases c <;> rfl
@[simp] theorem State.skipIf_hostTick (c : Bool) : (s.skipIf c).hostTick = s.hostTick := by cases c <;> rfl
@[simp] theorem State.skipIf_pc (c : Bool) : (s.skipIf c).pc = s.pc + (if c then 4 else 2) := by
  cases c <;> rfl

/-! ### `State.raise` -/

@[simp] theorem State.raise_mem (k : FaultKind) (n : Nat) : (s.raise k n).mem = s.mem := rfl
@[simp] theorem State.raise_v (k : FaultKind) (n : Nat) : (s.raise k n).v = s.v := rfl
@[simp] theorem State.raise_index (k : FaultKind) (n : Nat) : (s.raise k n).index = s.index := rfl
@[simp] theorem State.raise_pc (k : FaultKind) (n : Nat) : (s.raise k n).pc = s.pc := rfl
@[simp] theorem State.raise_stack (k : FaultKind) (n : Nat) : (s.raise k n).stack = s.stack := rfl
@[simp] theorem State.raise_sp (k : FaultKind) (n : Nat) : (s.raise k n).sp = s.sp := rfl
@[simp] theorem State.raise_dt (k : FaultKind) (n : Nat) : (s.raise k n).dt = s.dt := rfl
@[simp] theorem State.raise_st (k : FaultKind) (n : Nat) : (s.raise k n).st = s.st := rfl
@[simp] theorem State.raise_keys (k : FaultKind) (n : Nat) : (s.raise k n).keys = s.keys := rfl
@[simp] theorem State.raise_mode (k : FaultKind) (n : Nat) : (s.raise k n).mode = s.mode := rfl
@[simp] theorem State.raise_waitReg (k : FaultKind) (n : Nat) : (s.raise k n).waitReg = s.waitReg := rfl
@[simp] theorem State.raise_disp (k : FaultKind) (n : Nat) : (s.raise k n).disp = s.disp := rfl
@[simp] theorem State.raise_dirty (k : FaultKind) (n : Nat) : (s.raise k n).dirty = s.dirty := rfl
@[simp] theorem State.raise_fault (k : FaultKind) (n : Nat) : (s.raise k n).fault = some ⟨k, n⟩ := rfl
@[simp] theorem State.raise_rand (k : FaultKind) (n : Nat) : (s.raise k n).rand = s.rand := rfl
@[simp] theorem State.raise_unknownOpcode (k : FaultKind) (n : Nat) : (s.raise k n).unknownOpcode = s.unknownOpcode := rfl
@[simp] theorem State.raise_loadable (k : FaultKind) (n : Nat) : (s.raise k n).loadable = s.loadable := rfl
@[simp] theorem State.raise_hostTick (k : FaultKind) (n : Nat) : (s.raise k n).hostTick = s.hostTick := rfl

/-! ### `State.markDirty` -/

@[simp] theorem State.markDirty_mem : (s.markDirty).mem = s.mem := rfl
@[simp] theorem State.markDirty_v : (s.markDirty).v = s.v := rfl
@[simp] theorem State.markDirty_index : (s.markDirty).index = s.index := rfl
@[simp] theorem State.markDirty_pc : (s.markDirty).pc = s.pc := rfl
@[simp] theorem State.markDirty_stack : (s.markDirty).stack = s.stack := rfl
@[simp] theorem State.markDirty_sp : (s.markDirty).sp = s.sp := rfl
@[simp] theorem State.markDirty_dt : (s.markDirty).dt = s.dt := rfl
@[simp] theorem State.markDirty_st : (s.markDirty).st = s.st := rfl
@[simp] theorem State.markDirty_keys : (s.markDirty).keys = s.keys := rfl
@[simp] theorem State.markDirty_mode : (s.markDirty).mode = s.mode := rfl
@[simp] theorem State.markDirty_waitReg : (s.markDirty).waitReg = s.waitReg := rfl
@[simp] theorem State.markDirty_disp : (s.markDirty).disp = s.disp := rfl
@[simp] theorem State.markDirty_dirty : (s.markDirty).dirty = true := rfl
@[simp] theorem State.markDirty_fault : (s.markDirty).fault = s.fault := rfl
@[simp] theorem State.markDirty_rand : (s.markDirty).rand = s.rand := rfl
@[simp] theorem State.markDirty_unknownOpcode : (s.markDirty).unknownOpcode = s.unknownOpcode := rfl
@[simp] theorem State.markDirty_loadable : (s.markDirty).loadable = s.loadable := rfl
@[simp] theorem State.markDirty_hostTick : (s.markDirty).hostTick = s.hostTick := rfl

/-! ### `State.begin` -/

@[simp] theorem State.begin_mem (inp : TickInput) : (s.begin inp).mem = s.mem := rfl
@[simp] theorem State.begin_v (inp : TickInput) : (s.begin inp).v = s.v := rfl
@[simp] theorem State.begin_index (inp : TickInput) : (s.begin inp).index = s.index := rfl
@[simp] theorem State.begin_pc (inp : TickInput) : (s.begin inp).pc = s.pc := rfl
@[simp] theorem State.begin_stack (inp : TickInput) : (s.begin inp).stack = s.stack := rfl
@[simp] theorem State.begin_sp (inp : TickInput) : (s.begin inp).sp = s.sp := rfl
@[simp] theorem State.begin_dt (inp : TickInput) : (s.begin inp).dt = tickDown s.dt := rfl
@[simp] theorem State.begin_st (inp : TickInput) : (s.begin inp).st = tickDown s.st := rfl
@[simp] theorem State.begin_keys (inp : TickInput) : (s.begin inp).keys = inp.keys := rfl
@[simp] theorem State.begin_mode (inp : TickInput) : (s.begin inp).mode = s.mode := rfl
@[simp] theorem State.begin_waitReg (inp : TickInput) : (s.begin inp).waitReg = s.waitReg := rfl
@[simp] theorem State.begin_disp (inp : TickInput) : (s.begin inp).disp = s.disp := rfl
@[simp] theorem State.begin_dirty (inp : TickInput) : (s.begin inp).dirty = false := rfl
@[simp] theorem State.begin_fault (inp : TickInput) : (s.begin inp).fault = s.fault := rfl
@[simp] theorem State.begin_rand (inp : TickInput) : (s.begin inp).rand = inp.rand := rfl
@[simp] theorem State.begin_unknownOpcode (inp : TickInput) : (s.begin inp).unknownOpcode = none := rfl
@[simp] theorem State.begin_loadable (inp : TickInput) : (s.begin inp).loadable = false := rfl
@[simp] theorem State.begin_hostTick (inp : TickInput) : (s.begin inp).hostTick = s.hostTick + 1 := rfl

end Sys2Proof.Machine
end

