-- ==== Sys2Proof/Laws/Memory.lean ====
section
/-! SUPPORT. What the memory operations do: a read after a write to the same address gives the byte written, a
write leaves every other address alone, and the canonical form is kept. -/

namespace Sys2Proof.Machine

theorem Memory.wf_cons {a : Nat} {b : Byte} {rest : Memory} :
    Memory.wf ((a, b) :: rest) = true ↔
      a < Config.memSize ∧ b ≠ unlisted a ∧ (∀ c ∈ rest, a < c.1) ∧ Memory.wf rest = true := by
  simp [Memory.wf, and_assoc]

/-- The memory of the reset state is in canonical form. -/
theorem Memory.wf_reset : Memory.wf State.reset.mem = true := rfl

/-- An address below every listed one reads as unlisted. -/
theorem Memory.byteAt_below {m : Memory} {a : Nat} (h : ∀ c ∈ m, a < c.1) : Memory.byteAt m a = unlisted a := by
  induction m with
  | nil => rfl
  | cons c rest ih =>
    obtain ⟨k, b⟩ := c
    have hk : a < k := h (k, b) (by simp)
    rw [Memory.byteAt, if_neg (by omega)]
    exact ih fun c hc => h c (by simp [hc])

/-- Every entry of the memory after a write is the written cell or was there before. -/
theorem Memory.mem_put {m : Memory} {a : Nat} {b : Byte} {c : Host.Cell} (h : c ∈ Memory.put a b m) :
    c = (a, b) ∨ c ∈ m := by
  induction m with
  | nil =>
    rw [Memory.put] at h
    split at h <;> simp_all
  | cons d rest ih =>
    obtain ⟨k, e⟩ := d
    rw [Memory.put] at h
    split_ifs at h with h1 h2 h3 h4 <;> simp only [List.mem_cons] at h ⊢
    · exact .inr h
    · tauto
    · exact .inr (.inr h)
    · tauto
    · rcases h with h | h
      · exact .inr (.inl h)
      · rcases ih h with h | h <;> tauto

/-- A write to an address that exists keeps the canonical form. -/
theorem Memory.wf_put {m : Memory} {a : Nat} {b : Byte} (ha : a < Config.memSize) (h : Memory.wf m = true) :
    Memory.wf (Memory.put a b m) = true := by
  induction m with
  | nil =>
    rw [Memory.put]
    split <;> simp_all [Memory.wf]
  | cons d rest ih =>
    obtain ⟨k, e⟩ := d
    have h' := Memory.wf_cons.mp h
    rw [Memory.put]
    split_ifs with h1 h2 h3 h4
    · exact h
    · refine Memory.wf_cons.mpr ⟨ha, h2, ?_, h⟩
      intro c hc
      rcases List.mem_cons.mp hc with rfl | hc
      · exact h1
      · exact h1.trans (h'.2.2.1 c hc)
    · exact h'.2.2.2
    · subst h3
      exact Memory.wf_cons.mpr ⟨ha, h4, h'.2.2.1, h'.2.2.2⟩
    · refine Memory.wf_cons.mpr ⟨h'.1, h'.2.1, ?_, ih h'.2.2.2⟩
      intro c hc
      rcases Memory.mem_put hc with rfl | hc
      · show k < a
        omega
      · exact h'.2.2.1 c hc

/-- What a byte reads as after a write: the byte written at its address, what it was elsewhere. -/
theorem Memory.byteAt_put {m : Memory} (h : Memory.wf m = true) (a : Nat) (b : Byte) (c : Nat) :
    Memory.byteAt (Memory.put a b m) c = if c = a then b else Memory.byteAt m c := by
  induction m with
  | nil =>
    rw [Memory.put]
    by_cases hb : b = unlisted a <;> by_cases hc : c = a <;> simp [hb, hc, Memory.byteAt]
    exact fun h => absurd h.symm hc
  | cons d rest ih =>
    obtain ⟨k, e⟩ := d
    obtain ⟨-, -, hlt, hrest⟩ := Memory.wf_cons.mp h
    rw [Memory.put]
    split_ifs with h1 h2 h3 h4 h5 h6 h7
    · subst h3
      rw [h2, Memory.byteAt, if_neg (by omega)]
      exact Memory.byteAt_below fun x hx => h1.trans (hlt x hx)
    · rfl
    · rw [Memory.byteAt, if_pos h4.symm]
    · rw [Memory.byteAt, if_neg fun h => h4 h.symm]
    · subst h5 h7
      rw [h6]
      exact Memory.byteAt_below hlt
    · subst h5
      rw [Memory.byteAt, if_neg fun h => h7 h.symm]
    · rw [Memory.byteAt, if_pos (by omega)]
    · rw [Memory.byteAt, if_neg (by omega), Memory.byteAt, if_neg (by omega)]
    · rw [Memory.byteAt, if_neg (by omega), ih hrest, if_pos (by assumption)]
    · rw [Memory.byteAt, Memory.byteAt, ih hrest, if_neg ‹¬c = a›]

/-- A run of writes to addresses that exist keeps the canonical form. -/
theorem Memory.wf_putRun {bs : List Byte} {m : Memory} {a : Nat} (ha : a + bs.length ≤ Config.memSize)
    (h : Memory.wf m = true) : Memory.wf (Memory.putRun m a bs) = true := by
  induction bs generalizing m a with
  | nil => exact h
  | cons b bs ih =>
    rw [List.length_cons] at ha
    exact ih (by omega) (Memory.wf_put (by omega) h)

/-- What a byte reads as after a run of writes. -/
theorem Memory.byteAt_putRun {bs : List Byte} {m : Memory} {a : Nat} (ha : a + bs.length ≤ Config.memSize)
    (h : Memory.wf m = true) (c : Nat) :
    Memory.byteAt (Memory.putRun m a bs) c =
      if a ≤ c ∧ c < a + bs.length then bs.getD (c - a) 0 else Memory.byteAt m c := by
  induction bs generalizing m a with
  | nil => rw [Memory.putRun, if_neg (by simp)]
  | cons b bs ih =>
    rw [List.length_cons] at ha ⊢
    rw [Memory.putRun, ih (by omega) (Memory.wf_put (by omega) h), Memory.byteAt_put h]
    by_cases h1 : c = a
    · subst h1
      rw [if_neg (by omega), if_pos rfl, if_pos (by omega), Nat.sub_self, List.getD_cons_zero]
    · by_cases h2 : a ≤ c ∧ c < a + (bs.length + 1)
      · rw [if_pos (by omega), if_pos h2]
        obtain ⟨k, rfl⟩ : ∃ k, c = a + 1 + k := ⟨c - (a + 1), by omega⟩
        rw [show a + 1 + k - (a + 1) = k by omega, show a + 1 + k - a = k + 1 by omega, List.getD_cons_succ]
      · rw [if_neg (by omega), if_neg h1, if_neg h2]

theorem runFits_iff {a n : Nat} : runFits a n = true ↔ n = 0 ∨ a + n ≤ Config.memSize := by
  simp only [runFits, Bool.or_eq_true, beq_iff_eq, decide_eq_true_eq]
  omega

/-- Everything `Memory.writeRun` can do. -/
theorem Memory.writeRun_eq {m : Memory} {a : Nat} {bs : List Byte} :
    Memory.writeRun m a bs =
      if bs.length = 0 ∨ a + bs.length ≤ Config.memSize then some (Memory.putRun m a bs) else none := by
  simp only [Memory.writeRun, runFits_iff]

/-- Everything `Memory.readRun` can do. -/
theorem Memory.readRun_eq {m : Memory} {a n : Nat} :
    Memory.readRun m a n =
      if n = 0 ∨ a + n ≤ Config.memSize then some ((List.range n).map fun k => Memory.byteAt m (a + k))
      else none := by
  simp only [Memory.readRun, runFits_iff]

/-- A store that happens keeps the canonical form. -/
theorem Memory.wf_writeRun {m m' : Memory} {a : Nat} {bs : List Byte} (h : Memory.wf m = true)
    (hw : Memory.writeRun m a bs = some m') : Memory.wf m' = true := by
  rw [Memory.writeRun_eq] at hw
  split at hw
  · next hc =>
    cases hw
    rcases hc with h0 | hc
    · rw [List.length_eq_zero_iff.mp h0]
      exact h
    · exact Memory.wf_putRun hc h
  · cases hw

/-- What an address reads as after a store that happened. -/
theorem Memory.read_writeRun {m m' : Memory} {a : Nat} {bs : List Byte} (h : Memory.wf m = true)
    (hw : Memory.writeRun m a bs = some m') (c : Nat) :
    Memory.read m' c = if a ≤ c ∧ c < a + bs.length then bs[c - a]? else Memory.read m c := by
  rw [Memory.writeRun_eq] at hw
  split at hw
  · next hc =>
    cases hw
    rcases hc with h0 | hc
    · rw [List.length_eq_zero_iff.mp h0, if_neg (by simp), Memory.putRun]
    · unfold Memory.read
      rw [Memory.byteAt_putRun hc h]
      by_cases hin : a ≤ c ∧ c < a + bs.length
      · rw [if_pos hin, if_pos hin, if_pos (by omega), List.getD_eq_getElem?_getD]
        rw [List.getElem?_eq_getElem (by omega)]
        rfl
      · rw [if_neg hin, if_neg hin]
  · cases hw

/-- Reading a byte finds one exactly below 0x1000. -/
theorem Memory.read_eq_none {m : Memory} {a : Nat} : Memory.read m a = none ↔ Config.memSize ≤ a := by
  unfold Memory.read
  split <;> simp <;> omega

theorem Memory.read_of_lt {m : Memory} {a : Nat} (h : a < Config.memSize) :
    Memory.read m a = some (Memory.byteAt m a) := if_pos h

/-- A word stored where it fits is the word fetched there. -/
theorem Memory.fetch16_putWord {m : Memory} {a : Nat} (h : Memory.wf m = true) (ha : a + 2 ≤ Config.memSize)
    (w : Word) : Memory.fetch16 (Memory.putWord m a w) a = some w := by
  have hlen : a + [highByte w, lowByte w].length ≤ Config.memSize := ha
  unfold Memory.fetch16 Memory.putWord
  rw [Memory.read_of_lt (by omega), Memory.read_of_lt (by omega), Memory.byteAt_putRun hlen h,
    Memory.byteAt_putRun hlen h, if_pos (by simp), if_pos (by simp)]
  simp only [Nat.sub_self, Nat.add_sub_cancel_left, List.getD_cons_zero, List.getD_cons_succ,
    wordOfBytes_bytes]

/-- A fetch that does not fail finds the two bytes memory holds, the lower address's high. -/
theorem Memory.fetch16_of_le {m : Memory} {a : Nat} (h : a ≤ 0xFFE) :
    Memory.fetch16 m a = some (wordOfBytes (Memory.byteAt m a) (Memory.byteAt m (a + 1))) := by
  have hs : Config.memSize = 4096 := rfl
  rw [Memory.fetch16, Memory.read_of_lt (by omega), Memory.read_of_lt (by omega)]

/-- A fetch fails exactly above 0xFFE (40_tick_cycle.md R93). -/
theorem Memory.fetch16_eq_none {m : Memory} {a : Nat} : Memory.fetch16 m a = none ↔ 0xFFE < a := by
  have hs : Config.memSize = 4096 := rfl
  unfold Memory.fetch16
  by_cases h : a + 1 < Config.memSize
  · rw [Memory.read_of_lt (by omega), Memory.read_of_lt h]
    exact iff_of_false (by simp) (by omega)
  · rw [Memory.read_eq_none (a := a + 1).mpr (by omega)]
    exact iff_of_true (by split <;> simp_all) (by omega)

end Sys2Proof.Machine
end

