-- ==== Sys2Proof/Laws/Ops.lean ====
section
/-! SUPPORT. What the named operations over the state do. -/

namespace Sys2Proof.Machine

/-! ### Registers -/

@[simp] theorem State.readV_writeV_same (s : State) (x : Reg) (b : Byte) : (s.writeV x b).readV x = b := by
  simp [State.readV, State.writeV]

theorem State.readV_writeV_ne (s : State) {x y : Reg} (b : Byte) (h : x ≠ y) :
    (s.writeV x b).readV y = s.readV y := by
  have hv : x.val ≠ y.val := fun e => h (Fin.ext e)
  simp [State.readV, State.writeV, hv]

theorem State.readV_writeV (s : State) (x y : Reg) (b : Byte) :
    (s.writeV x b).readV y = if y = x then b else s.readV y := by
  split
  · next h => rw [h, State.readV_writeV_same]
  · next h => exact s.readV_writeV_ne b fun e => h e.symm

@[simp] theorem State.readV_flow (s : State) (d : Flow) (x : Reg) : (s.flow d).readV x = s.readV x := by
  cases d <;> rfl

@[simp] theorem State.readV_raise (s : State) (k : FaultKind) (n : Nat) (x : Reg) :
    (s.raise k n).readV x = s.readV x := rfl

@[simp] theorem State.readV_begin (s : State) (inp : TickInput) (x : Reg) :
    (s.begin inp).readV x = s.readV x := rfl

/-- The registers a run of bytes fills. -/
theorem getElem_fillV {bs : List Byte} {k : Nat} {v : Vector Byte 16} (j : Fin 16) :
    (fillV k bs v)[j.val] = if k ≤ j.val ∧ j.val < k + bs.length then bs.getD (j.val - k) 0 else v[j.val] := by
  induction bs generalizing k v with
  | nil => rw [fillV, if_neg (by simp)]
  | cons b bs ih =>
    rw [fillV, ih, List.length_cons, Vector.getElem_setIfInBounds]
    by_cases h1 : j.val = k
    · rw [if_neg (by omega), if_pos h1.symm, if_pos (by omega), h1, Nat.sub_self, List.getD_cons_zero]
    · by_cases h2 : k ≤ j.val ∧ j.val < k + (bs.length + 1)
      · rw [if_pos (by omega), if_pos h2, show j.val - k = (j.val - (k + 1)) + 1 by omega, List.getD_cons_succ]
      · rw [if_neg (by omega), if_neg (fun e => h1 e.symm), if_neg h2]

@[simp] theorem State.length_regsTo (s : State) (x : Reg) : (s.regsTo x).length = x.val + 1 := by
  simp [State.regsTo]

/-- The k-th byte LD [I], Vx stores. -/
theorem State.getElem?_regsTo (s : State) (x : Reg) (k : Nat) (h : k ≤ x.val) :
    (s.regsTo x)[k]? = some (s.readV ⟨k, by omega⟩) := by
  simp [State.regsTo, State.readV, show k < x.val + 1 by omega]

/-! ### The return stack -/

/-- Everything a push can do. -/
theorem State.push_eq (s : State) (w : Word) :
    s.push w =
      if h : s.sp.val < 16 then
        some { s with stack := s.stack.set s.sp.val w, sp := ⟨s.sp.val + 1, by omega⟩ }
      else none := rfl

/-- Everything a pop can do. -/
theorem State.pop_eq (s : State) :
    s.pop =
      if h : 0 < s.sp.val then
        some (s.stack[s.sp.val - 1]'(by omega), { s with sp := ⟨s.sp.val - 1, by omega⟩ })
      else none := rfl

/-! ### Keys -/

/-- A key number of 0 to 15 finds its flag. -/
theorem State.keyDown_of_lt (s : State) {k : Nat} (h : k < 16) : s.keyDown k = some s.keys[k] :=
  Vector.getElem?_eq_getElem h

/-- A key number above 15 finds none. -/
theorem State.keyDown_eq_none (s : State) {k : Nat} : s.keyDown k = none ↔ 16 ≤ k := by
  simp [State.keyDown]

/-- The first pressed key is pressed and no lower one is. -/
theorem firstKey_eq_some {keys : Keys} {k : Reg} :
    firstKey keys = some k ↔ keys[k.val] = true ∧ ∀ j : Reg, j < k → keys[j.val] = false := by
  rw [firstKey, List.find?_eq_some_iff_getElem]
  constructor
  · rintro ⟨hk, i, hi, he, hlt⟩
    simp only [List.getElem_finRange] at he hlt
    refine ⟨hk, fun j hj => ?_⟩
    have hki : k.val = i := by rw [← he]; rfl
    have hji : j.val < i := hki ▸ hj
    simpa using hlt j.val hji
  · rintro ⟨hk, hlt⟩
    refine ⟨hk, k.val, by simp, by simp, fun j hj => ?_⟩
    have hj16 : j < 16 := by omega
    simpa using hlt ⟨j, hj16⟩ hj

/-- No first pressed key: none is pressed. -/
theorem firstKey_eq_none {keys : Keys} : firstKey keys = none ↔ ∀ j : Reg, keys[j.val] = false := by
  simp [firstKey, List.find?_eq_none]

/-! ### The display -/

/-- What a pixel is after one is set. -/
theorem Display.pixel_setPixel (d : Display) (r : Fin 32) (c : Fin 64) (b : Bool) (r' : Fin 32) (c' : Fin 64) :
    Display.pixel (Display.setPixel d r c b) r' c' = if r' = r ∧ c' = c then b else Display.pixel d r' c' := by
  unfold Display.pixel Display.setPixel
  rw [Vector.getElem_set]
  by_cases hr : r.val = r'.val
  · have hr' : r' = r := Fin.ext hr.symm
    subst hr'
    rw [if_pos rfl, Vector.getElem_set]
    by_cases hc : c.val = c'.val
    · have hc' : c' = c := Fin.ext hc.symm
      subst hc'
      simp
    · rw [if_neg hc, if_neg fun h => hc (congrArg Fin.val h.2).symm]
  · rw [if_neg hr, if_neg fun h => hr (congrArg Fin.val h.1).symm]

@[simp] theorem Display.pixel_blank (r : Fin 32) (c : Fin 64) : Display.pixel Display.blank r c = false := by
  simp [Display.pixel, Display.blank]

/-- Two buffers with the same pixels are the same. -/
theorem Display.ext_pixel {d e : Display} (h : ∀ r c, Display.pixel d r c = Display.pixel e r c) : d = e := by
  refine Vector.ext fun r hr => Vector.ext fun c hc => ?_
  exact h ⟨r, hr⟩ ⟨c, hc⟩

end Sys2Proof.Machine
end

