-- ==== Sys2Proof/Laws/Exec.lean ====
section
/-! SUPPORT. Everything the shared operations of the meanings can do, one lemma each. -/

namespace Sys2Proof.Machine

/-! ### The return stack (41_control_flow.md) -/

/-- CALL with room on the stack. -/
theorem execCall_of_lt {s : State} (h : s.sp.val < 16) (nnn : BitVec 12) :
    execCall nnn s = .next { s with
      stack := s.stack.set s.sp.val (s.pc + 2), sp := ⟨s.sp.val + 1, by omega⟩, pc := addrWord nnn } := by
  rw [execCall, State.push_eq, dif_pos h]
  rfl

/-- CALL on a full stack. -/
theorem execCall_of_full {s : State} (h : ¬ s.sp.val < 16) (nnn : BitVec 12) :
    execCall nnn s = .next (s.raise .stackOverflow s.pc.toNat) := by
  rw [execCall, State.push_eq, dif_neg h]

/-- RET with a return address on the stack. -/
theorem execRet_of_pos {s : State} (h : 0 < s.sp.val) :
    execRet s = .next { s with
      sp := ⟨s.sp.val - 1, by omega⟩, pc := s.stack[s.sp.val - 1]'(by omega) } := by
  rw [execRet, State.pop_eq, dif_pos h]
  rfl

/-- RET on an empty stack. -/
theorem execRet_of_empty {s : State} (h : ¬ 0 < s.sp.val) :
    execRet s = .next (s.raise .stackUnderflow s.pc.toNat) := by
  rw [execRet, State.pop_eq, dif_neg h]

/-! ### The key tests (45_keys_timers.md) -/

/-- SKP and SKNP with a key number of 0 to 15. -/
theorem execSkp_of_lt {s : State} {x : Reg} (h : (s.readV x).toNat < 16) :
    execSkp x s = .next (s.skipIf s.keys[(s.readV x).toNat]) ∧
      execSknp x s = .next (s.skipIf !s.keys[(s.readV x).toNat]) := by
  rw [execSkp, execSknp, s.keyDown_of_lt h]
  exact ⟨rfl, rfl⟩

/-- SKP and SKNP with a number that is no key's. -/
theorem execSkp_of_ge {s : State} {x : Reg} (h : 16 ≤ (s.readV x).toNat) :
    execSkp x s = .next (s.raise .keyIndexFault (s.readV x).toNat) ∧
      execSknp x s = .next (s.raise .keyIndexFault (s.readV x).toNat) := by
  rw [execSkp, execSknp, s.keyDown_eq_none.mpr h]
  exact ⟨rfl, rfl⟩

/-! ### Memory transfers (43_index_memory.md) -/

/-- Everything a store at I can do: all bytes are written, or a MemoryFault and nothing is. -/
theorem State.storeAtIndex_eq (s : State) (bs : List Byte) :
    s.storeAtIndex bs =
      if bs.length = 0 ∨ s.index.toNat + bs.length ≤ Config.memSize then
        .next { s with mem := Memory.putRun s.mem s.index.toNat bs, pc := s.pc + 2 }
      else .next (s.raise .memoryFault (firstBad s.index.toNat)) := by
  unfold State.storeAtIndex
  rw [Memory.writeRun_eq]
  by_cases h : bs.length = 0 ∨ s.index.toNat + bs.length ≤ Config.memSize
  · rw [if_pos h, if_pos h]
    rfl
  · rw [if_neg h, if_neg h]
    rfl

/-- Everything the normative register load can do. -/
theorem State.loadRegs_eq (s : State) (x : Reg) :
    s.loadRegs x =
      if s.index.toNat + (x.val + 1) ≤ Config.memSize then
        .next { s with
          v := fillV 0 ((List.range (x.val + 1)).map fun k => Memory.byteAt s.mem (s.index.toNat + k)) s.v
          pc := s.pc + 2 }
      else .next (s.raise .memoryFault (firstBad s.index.toNat)) := by
  unfold State.loadRegs
  rw [Memory.readRun_eq]
  by_cases h : s.index.toNat + (x.val + 1) ≤ Config.memSize
  · rw [if_pos (.inr h), if_pos h]
    rfl
  · rw [if_neg (by omega), if_neg h]
    rfl

/-- Everything LD B, Vx can do. -/
theorem execLdBVx_eq (x : Reg) (s : State) :
    execLdBVx x s =
      if s.index.toNat + 3 ≤ Config.memSize then
        .next { s with mem := Memory.putRun s.mem s.index.toNat (bcdDigits (s.readV x)), pc := s.pc + 2 }
      else .next (s.raise .memoryFault (firstBad s.index.toNat)) := by
  have hl : (bcdDigits (s.readV x)).length = 3 := rfl
  rw [execLdBVx, State.storeAtIndex_eq]
  by_cases h : s.index.toNat + 3 ≤ Config.memSize
  · rw [if_pos (.inr h), if_pos h]
  · rw [if_neg (by omega), if_neg h]

/-- Everything LD [I], Vx can do. -/
theorem execLdMemVx_eq (x : Reg) (s : State) :
    execLdMemVx x s =
      if s.index.toNat + (x.val + 1) ≤ Config.memSize then
        .next { s with mem := Memory.putRun s.mem s.index.toNat (s.regsTo x), pc := s.pc + 2 }
      else .next (s.raise .memoryFault (firstBad s.index.toNat)) := by
  have hl := s.length_regsTo x
  rw [execLdMemVx, State.storeAtIndex_eq]
  by_cases h : s.index.toNat + (x.val + 1) ≤ Config.memSize
  · rw [if_pos (.inr (by omega)), if_pos h]
  · rw [if_neg (by omega), if_neg h]

/-- With the default parameter LD Vx, [I] is the normative form. -/
theorem execLdVxMem_eq (x : Reg) (s : State) : execLdVxMem x s = s.loadRegs x := by
  rw [execLdVxMem, loadRegsAsymmetric, if_neg Bool.false_ne_true]

/-! ### Flag first, then the result (42_load_alu.md) -/

/-- Everything the flag-then-result shape can do. -/
theorem State.flagThen_eq (s : State) (flag : Byte) (x y : Reg) (f : Byte → Byte → Byte) :
    s.flagThen flag x y f =
      { s with
        v := (s.v.set vf.val flag).set x.val (f ((s.v.set vf.val flag)[x.val]) ((s.v.set vf.val flag)[y.val]))
        pc := s.pc + 2 } := rfl

/-! ### Drawing (44_display.md) -/

/-- One pixel of a draw changes only the buffer and the registers. -/
theorem drawPixel_frame (x : Reg) (r : Fin 32) (b : Byte) (s : State) (i : Nat) :
    drawPixel x r b s i = { s with v := (drawPixel x r b s i).v, disp := (drawPixel x r b s i).disp } := rfl

/-- What one pixel of a draw leaves in the buffer. -/
theorem drawPixel_disp (x : Reg) (r : Fin 32) (b : Byte) (s : State) (i : Nat) :
    (drawPixel x r b s i).disp =
      Display.setPixel s.disp r (columnOf ((s.readV x).toNat + i))
        (Display.pixel s.disp r (columnOf ((s.readV x).toNat + i)) ^^ b.getLsbD (7 - i)) := rfl

/-- What one pixel of a draw leaves in the registers: VF accumulates the collision. -/
theorem readV_drawPixel (x z : Reg) (r : Fin 32) (b : Byte) (s : State) (i : Nat) :
    (drawPixel x r b s i).readV z =
      if z = vf then
        s.readV vf ||| flagByte (b.getLsbD (7 - i) && Display.pixel s.disp r (columnOf ((s.readV x).toNat + i)))
      else s.readV z := by
  rw [drawPixel, State.readV_writeV]
  rfl

/-- A draw's pixels, any number of them, change only the buffer and the registers. -/
theorem foldl_drawPixel_frame (x : Reg) (r : Fin 32) (b : Byte) (l : List Nat) (s : State) :
    l.foldl (drawPixel x r b) s =
      { s with v := (l.foldl (drawPixel x r b) s).v, disp := (l.foldl (drawPixel x r b) s).disp } := by
  induction l generalizing s with
  | nil => rfl
  | cons i l ih => rw [List.foldl_cons, ih, drawPixel_frame]

/-- A draw's pixels leave every register but VF. -/
theorem readV_foldl_drawPixel {z : Reg} (hz : z ≠ vf) (x : Reg) (r : Fin 32) (b : Byte) (l : List Nat) (s : State) :
    (l.foldl (drawPixel x r b) s).readV z = s.readV z := by
  induction l generalizing s with
  | nil => rfl
  | cons i l ih => rw [List.foldl_cons, ih, readV_drawPixel, if_neg hz]

/-- A draw's rows change only the buffer and the registers. -/
theorem drawRows_frame (x y : Reg) (bs : List Byte) (k : Nat) (s : State) :
    drawRows x y k bs s =
      { s with v := (drawRows x y k bs s).v, disp := (drawRows x y k bs s).disp } := by
  induction bs generalizing k s with
  | nil => rfl
  | cons b bs ih =>
    rw [drawRows, ih]
    rw [drawRow, foldl_drawPixel_frame]

/-- A draw's rows leave every register but VF. -/
theorem readV_drawRows {z : Reg} (hz : z ≠ vf) (x y : Reg) (bs : List Byte) (k : Nat) (s : State) :
    (drawRows x y k bs s).readV z = s.readV z := by
  induction bs generalizing k s with
  | nil => rfl
  | cons b bs ih => rw [drawRows, ih, drawRow, readV_foldl_drawPixel hz]

/-- Everything DRW can do: it draws and ends with Next, or a MemoryFault and nothing changes. -/
theorem execDrw_eq (x y : Reg) (n : BitVec 4) (s : State) :
    execDrw x y n s =
      if n.toNat = 0 ∨ s.index.toNat + n.toNat ≤ Config.memSize then
        .next (((drawRows x y 0 ((List.range n.toNat).map fun k => Memory.byteAt s.mem (s.index.toNat + k))
          (s.writeV vf 0)).markDirty).flow .next)
      else .next (s.raise .memoryFault (firstBad s.index.toNat)) := by
  unfold execDrw
  rw [Memory.readRun_eq]
  by_cases h : n.toNat = 0 ∨ s.index.toNat + n.toNat ≤ Config.memSize
  · rw [if_pos h, if_pos h]
  · rw [if_neg h, if_neg h]
    rfl

end Sys2Proof.Machine
end

