-- ==== Sys2Proof/Laws/Operands.lean ====
section
/-! SUPPORT. The operand forms, the flags and the timers as numbers. -/

namespace Sys2Proof.Machine

theorem addrWord_eq (nnn : BitVec 12) : addrWord nnn = BitVec.ofNat 16 nnn.toNat := (BitVec.ofNat_toNat 16 nnn).symm

theorem addrWord_toNat (nnn : BitVec 12) : (addrWord nnn).toNat = nnn.toNat := by
  rw [addrWord, BitVec.toNat_setWidth]
  have := nnn.isLt
  omega

theorem byteWord_toNat (b : Byte) : (byteWord b).toNat = b.toNat := by
  rw [byteWord, BitVec.toNat_setWidth]
  have := b.isLt
  omega

/-- The glyph address does not wrap (43_index_memory.md R152). -/
theorem glyphAddr_toNat (b : Byte) : (glyphAddr b).toNat = 5 * b.toNat := by
  rw [glyphAddr, BitVec.toNat_mul, byteWord_toNat, show (5 : Word).toNat = 5 from rfl]
  have := b.isLt
  omega

@[simp] theorem length_bcdDigits (b : Byte) : (bcdDigits b).length = 3 := rfl

/-- `first_bad` of 43_index_memory.md. -/
theorem firstBad_eq (a : Nat) : firstBad a = if 0xFFF < a then a else 0x1000 := by
  have hs : Config.memSize = 4096 := rfl
  unfold firstBad
  split_ifs <;> omega

theorem flagByte_toNat (b : Bool) : (flagByte b).toNat = b.toNat := by cases b <;> rfl

theorem carryFlag_eq (a b : Byte) : carryFlag a b = if a.toNat + b.toNat > 255 then 1 else 0 := by
  simp [carryFlag, flagByte]

theorem greaterFlag_eq (a b : Byte) : greaterFlag a b = if a.toNat > b.toNat then 1 else 0 := by
  simp [greaterFlag, flagByte]

theorem lowBitFlag_eq (a : Byte) : lowBitFlag a = BitVec.ofNat 8 (a.toNat % 2) := by
  refine BitVec.eq_of_toNat_eq ?_
  rw [lowBitFlag, flagByte_toNat, BitVec.getLsbD, Nat.testBit_zero, BitVec.toNat_ofNat]
  rcases Nat.mod_two_eq_zero_or_one a.toNat with h | h <;> simp [h]

theorem highBitFlag_eq (a : Byte) : highBitFlag a = BitVec.ofNat 8 (a.toNat / 128) := by
  refine BitVec.eq_of_toNat_eq ?_
  have ha := a.isLt
  rw [highBitFlag, flagByte_toNat, BitVec.getLsbD, Nat.testBit_eq_decide_div_mod_eq, BitVec.toNat_ofNat]
  rcases (show a.toNat / 2 ^ 7 = 0 ∨ a.toNat / 2 ^ 7 = 1 by omega) with h | h
  · rw [h, show a.toNat / 128 = 0 by omega]
    rfl
  · rw [h, show a.toNat / 128 = 1 by omega]
    rfl

/-- A timer tick is subtraction with the floor at 0 (45_keys_timers.md R185). -/
theorem tickDown_toNat (t : Byte) : (tickDown t).toNat = t.toNat - 1 := by
  unfold tickDown
  split
  · next h => rw [h]; rfl
  · next h =>
    have h0 : t.toNat ≠ 0 := fun e => h (BitVec.eq_of_toNat_eq e)
    rw [BitVec.toNat_sub]
    have := t.isLt
    have h1 : (1 : Byte).toNat = 1 := rfl
    omega

/-- The sound output as a number (45_keys_timers.md R193). -/
theorem soundActive_eq (t : Byte) : (t != 0) = decide (0 < t.toNat) := by
  rcases Nat.eq_zero_or_pos t.toNat with h | h
  · rw [decide_eq_false (by omega), show t = 0 from BitVec.eq_of_toNat_eq h]
    rfl
  · rw [decide_eq_true h]
    simp only [bne_iff_ne, ne_eq]
    intro e
    rw [e] at h
    exact absurd h (by decide)

end Sys2Proof.Machine
end

