-- ==== Sys2Proof/Laws/PerInstr.lean ====
section
/-! SUPPORT. The family FixedBits: the word of every instruction carries the fixed bits that its row of the
opcode map gives it (30_encoding.md R75), one lemma per constructor. -/

namespace Sys2Proof.Laws.FixedBits

/-- The word of the instruction selects the instruction's row. -/
def Statement (i : Instr) : Prop := i.row.selects (encode i) = true

theorem of_eq {i : Instr} (h : encode i &&& i.row.mask = i.row.pattern) : Statement i := by
  rw [Statement, OpcodeRow.selects, h, beq_self_eq_true]

theorem cls : Statement .cls := of_eq (by decide)
theorem ret : Statement .ret := of_eq (by decide)
theorem jp (nnn) : Statement (.jp nnn) := of_eq (wordA_and_mask _ _)
theorem call (nnn) : Statement (.call nnn) := of_eq (wordA_and_mask _ _)
theorem seImm (x kk) : Statement (.seImm x kk) := of_eq (wordA_and_mask _ _)
theorem sneImm (x kk) : Statement (.sneImm x kk) := of_eq (wordA_and_mask _ _)
theorem seReg (x y) : Statement (.seReg x y) := of_eq (wordXYN_and_maskXY _ _ _ _)
theorem ldImm (x kk) : Statement (.ldImm x kk) := of_eq (wordA_and_mask _ _)
theorem addImm (x kk) : Statement (.addImm x kk) := of_eq (wordA_and_mask _ _)
theorem ldReg (x y) : Statement (.ldReg x y) := of_eq (wordXYN_and_maskXY _ _ _ _)
theorem orReg (x y) : Statement (.orReg x y) := of_eq (wordXYN_and_maskXY _ _ _ _)
theorem andReg (x y) : Statement (.andReg x y) := of_eq (wordXYN_and_maskXY _ _ _ _)
theorem xorReg (x y) : Statement (.xorReg x y) := of_eq (wordXYN_and_maskXY _ _ _ _)
theorem addReg (x y) : Statement (.addReg x y) := of_eq (wordXYN_and_maskXY _ _ _ _)
theorem sub (x y) : Statement (.sub x y) := of_eq (wordXYN_and_maskXY _ _ _ _)
theorem shr (x y) : Statement (.shr x y) := of_eq (wordXYN_and_maskXY _ _ _ _)
theorem subn (x y) : Statement (.subn x y) := of_eq (wordXYN_and_maskXY _ _ _ _)
theorem shl (x y) : Statement (.shl x y) := of_eq (wordXYN_and_maskXY _ _ _ _)
theorem sneReg (x y) : Statement (.sneReg x y) := of_eq (wordXYN_and_maskXY _ _ _ _)
theorem ldI (nnn) : Statement (.ldI nnn) := of_eq (wordA_and_mask _ _)
theorem jpV0 (nnn) : Statement (.jpV0 nnn) := of_eq (wordA_and_mask _ _)
theorem rnd (x kk) : Statement (.rnd x kk) := of_eq (wordA_and_mask _ _)
theorem drw (x y n) : Statement (.drw x y n) := of_eq (wordA_and_mask _ _)
theorem skp (x) : Statement (.skp x) := of_eq (wordXK_and_maskX _ _ _)
theorem sknp (x) : Statement (.sknp x) := of_eq (wordXK_and_maskX _ _ _)
theorem ldVxDt (x) : Statement (.ldVxDt x) := of_eq (wordXK_and_maskX _ _ _)
theorem ldVxK (x) : Statement (.ldVxK x) := of_eq (wordXK_and_maskX _ _ _)
theorem ldDtVx (x) : Statement (.ldDtVx x) := of_eq (wordXK_and_maskX _ _ _)
theorem ldStVx (x) : Statement (.ldStVx x) := of_eq (wordXK_and_maskX _ _ _)
theorem addIVx (x) : Statement (.addIVx x) := of_eq (wordXK_and_maskX _ _ _)
theorem ldFVx (x) : Statement (.ldFVx x) := of_eq (wordXK_and_maskX _ _ _)
theorem ldBVx (x) : Statement (.ldBVx x) := of_eq (wordXK_and_maskX _ _ _)
theorem ldMemVx (x) : Statement (.ldMemVx x) := of_eq (wordXK_and_maskX _ _ _)
theorem ldVxMem (x) : Statement (.ldVxMem x) := of_eq (wordXK_and_maskX _ _ _)
theorem unknown (op) : Statement (.unknown op) := of_eq (BitVec.and_zero)

end Sys2Proof.Laws.FixedBits
end

