-- ==== Sys2Proof/Laws/Tick.lean ====
section
/-! SUPPORT. Everything a tick can do: the machine is faulted, or it waits, or its fetch fails, or it executes
one instruction. -/

namespace Sys2Proof.Machine

/-- A tick on a faulted machine. -/
theorem tick_of_faulted {s : State} {f : FaultRecord} (h : s.fault = some f) (inp : TickInput) :
    tick inp s = .next s := by
  rw [tick, h]

/-- A tick of a waiting machine. -/
theorem tick_of_waiting {s : State} (hf : s.fault = none) (hm : s.mode = .waitingForKey) (inp : TickInput) :
    tick inp s = .next (s.begin inp).waitMachine := by
  rw [tick, hf]
  simp only [State.tickBody, State.begin_mode, hm]

/-- A tick of a running machine. -/
theorem tick_of_running {s : State} (hf : s.fault = none) (hm : s.mode = .running) (inp : TickInput) :
    tick inp s = (s.begin inp).fetchExec := by
  rw [tick, hf]
  simp only [State.tickBody, State.begin_mode, hm]

/-- Everything fetch and execute can do. -/
theorem State.fetchExec_eq (s : State) :
    s.fetchExec =
      match Memory.fetch16 s.mem s.pc.toNat with
      | some op => exec (decode op) s
      | none => .next (s.raise .memoryFault (firstBad s.pc.toNat)) := rfl

/-- Everything the wait machine can do. -/
theorem State.waitMachine_eq (s : State) :
    s.waitMachine =
      match firstKey s.keys with
      | some k => { s with v := s.v.set s.waitReg.val (BitVec.ofNat 8 k.val), mode := .running, pc := s.pc + 2 }
      | none => s := by
  unfold State.waitMachine
  cases firstKey s.keys <;> rfl

/-- Everything a tick can do. -/
theorem tick_cases {inp : TickInput} {s t : State} (h : tick inp s = .next t) :
    (s.fault ≠ none ∧ t = s) ∨
    (s.fault = none ∧ s.mode = .waitingForKey ∧ t = (s.begin inp).waitMachine) ∨
    (s.fault = none ∧ s.mode = .running ∧ 0xFFE < s.pc.toNat ∧
      t = (s.begin inp).raise .memoryFault (firstBad s.pc.toNat)) ∨
    (s.fault = none ∧ s.mode = .running ∧ s.pc.toNat ≤ 0xFFE ∧
      ∃ op, Memory.fetch16 s.mem s.pc.toNat = some op ∧ exec (decode op) (s.begin inp) = .next t) := by
  rcases hf : s.fault with _ | f
  · rcases hm : s.mode
    · rw [tick_of_running hf hm, State.fetchExec_eq, State.begin_mem, State.begin_pc] at h
      rcases ho : Memory.fetch16 s.mem s.pc.toNat with _ | op
      · rw [ho] at h
        cases h
        exact .inr (.inr (.inl ⟨rfl, rfl, Memory.fetch16_eq_none.mp ho, rfl⟩))
      · rw [ho] at h
        refine .inr (.inr (.inr ⟨rfl, rfl, ?_, op, rfl, h⟩))
        by_contra hc
        rw [Memory.fetch16_eq_none.mpr (by omega)] at ho
        cases ho
    · rw [tick_of_waiting hf hm] at h
      cases h
      exact .inr (.inl ⟨rfl, rfl, rfl⟩)
  · rw [tick_of_faulted hf] at h
    cases h
    exact .inl ⟨by simp, rfl⟩

/-- The instruction `withFetchWord` places is the one the next fetch decodes. -/
theorem fetch16_withFetchWord (s : State) (nbits w : Nat) (h : Memory.wf s.mem = true) :
    Memory.fetch16 (s.withFetchWord nbits w).mem (s.withFetchWord nbits w).pc.toNat = some (tableWord nbits w) := by
  refine Memory.fetch16_putWord h ?_ _
  have hs : Config.memSize = 4096 := rfl
  unfold fetchPlace fetchable
  by_cases hp : s.pc.toNat + 1 < Config.memSize
  · rw [if_pos (decide_eq_true hp)]
    omega
  · rw [if_neg (by simpa using hp)]
    decide

end Sys2Proof.Machine
end

