-- ==== Sys2Proof/Tests/Slice0.lean ====
section
/-! SUPPORT. Tests of the model's own: the ill-formed terms, a word of every instruction written out from
30_encoding.md R71 and R75, one or two vectors of 95_test_vectors.md per instruction (their ids in the
comments), and the witnesses of the statements' hypotheses. -/

namespace Sys2Proof.Tests

open Sys2Proof.Machine

/-! ### Well-formed terms (R77) -/

theorem test_wf_refuses_class0_instructions :
    (Instr.unknown 0x00E0).wellFormed = false ∧ (Instr.unknown 0x00EE).wellFormed = false := by decide

theorem test_wf_refuses_whole_classes :
    ([0x1ABC, 0x2300, 0x332A, 0x432A, 0x6A2F, 0x7120, 0xA2F0, 0xB300, 0xC10F, 0xD125] : List Word).all
      (fun w => !(Instr.unknown w).wellFormed) = true := by decide

theorem test_wf_refuses_register_pairs :
    ([0x5120, 0x9120, 0x8120, 0x8121, 0x8122, 0x8123, 0x8124, 0x8125, 0x8126, 0x8127, 0x812E] : List Word).all
      (fun w => !(Instr.unknown w).wellFormed) = true := by decide

theorem test_wf_refuses_single_registers :
    ([0xE29E, 0xE2A1, 0xF307, 0xF50A, 0xF115, 0xF118, 0xF11E, 0xF329, 0xF033, 0xF255, 0xF265] : List Word).all
      (fun w => !(Instr.unknown w).wellFormed) = true := by decide

/-- FE6, FE7, FE8, and the machine-code call of R78. -/
theorem test_wf_accepts_unknown_words :
    ([0x0000, 0x0123, 0x00E1, 0x5121, 0x8128, 0x9121, 0xE29F, 0xF1FF] : List Word).all
      (fun w => (Instr.unknown w).wellFormed) = true := by decide

theorem test_wf_accepts_every_other_term :
    Instr.cls.wellFormed = true ∧ (Instr.jp 0xFFF).wellFormed = true ∧ (Instr.shr 15 15).wellFormed = true ∧
      (Instr.drw 15 15 15).wellFormed = true := by decide

/-! ### Decoding: c ++ x ++ y ++ n, nibble by nibble -/

theorem test_decode_class0 :
    decode 0b0000_0000_1110_0000 = .cls ∧ decode 0b0000_0000_1110_1110 = .ret ∧
      decode 0b0000_0000_1110_0001 = .unknown 0x00E1 ∧ decode 0b0000_0001_0010_0011 = .unknown 0x0123 := by decide

theorem test_decode_addresses :
    decode 0b0001_1010_1011_1100 = .jp 0xABC ∧ decode 0b0010_0011_0000_0001 = .call 0x301 ∧
      decode 0b1010_0010_1111_0000 = .ldI 0x2F0 ∧ decode 0b1011_0011_0000_0010 = .jpV0 0x302 := by decide

theorem test_decode_immediates :
    decode 0b0011_0011_0010_1010 = .seImm 3 0x2A ∧ decode 0b0100_0011_0010_1011 = .sneImm 3 0x2B ∧
      decode 0b0110_1010_0010_1111 = .ldImm 0xA 0x2F ∧ decode 0b0111_0001_0010_0000 = .addImm 1 0x20 ∧
      decode 0b1100_0001_0000_1111 = .rnd 1 0x0F := by decide

theorem test_decode_register_pairs :
    decode 0b0101_0001_0010_0000 = .seReg 1 2 ∧ decode 0b1001_0001_0010_0000 = .sneReg 1 2 ∧
      decode 0b1000_0001_0010_0000 = .ldReg 1 2 ∧ decode 0b1000_0001_0010_0001 = .orReg 1 2 ∧
      decode 0b1000_0001_0010_0010 = .andReg 1 2 ∧ decode 0b1000_0001_0010_0011 = .xorReg 1 2 := by decide

theorem test_decode_arithmetic :
    decode 0b1000_0001_0010_0100 = .addReg 1 2 ∧ decode 0b1000_0001_0010_0101 = .sub 1 2 ∧
      decode 0b1000_0001_0111_0110 = .shr 1 7 ∧ decode 0b1000_0001_0010_0111 = .subn 1 2 ∧
      decode 0b1000_0001_0111_1110 = .shl 1 7 ∧ decode 0b1000_0001_0010_1000 = .unknown 0x8128 := by decide

theorem test_decode_draw : decode 0b1101_0001_0010_0101 = .drw 1 2 5 := by decide

theorem test_decode_keys :
    decode 0b1110_0010_1001_1110 = .skp 2 ∧ decode 0b1110_0010_1010_0001 = .sknp 2 ∧
      decode 0b1110_0010_1001_1111 = .unknown 0xE29F := by decide

theorem test_decode_timers :
    decode 0b1111_0011_0000_0111 = .ldVxDt 3 ∧ decode 0b1111_0101_0000_1010 = .ldVxK 5 ∧
      decode 0b1111_0001_0001_0101 = .ldDtVx 1 ∧ decode 0b1111_0001_0001_1000 = .ldStVx 1 := by decide

theorem test_decode_index :
    decode 0b1111_0001_0001_1110 = .addIVx 1 ∧ decode 0b1111_0011_0010_1001 = .ldFVx 3 ∧
      decode 0b1111_0000_0011_0011 = .ldBVx 0 ∧ decode 0b1111_0010_0101_0101 = .ldMemVx 2 ∧
      decode 0b1111_0010_0110_0101 = .ldVxMem 2 ∧ decode 0b1111_0001_1111_1111 = .unknown 0xF1FF := by decide

/-- The host's question gives the table's bits to the decoder, high byte first. -/
theorem test_decodeTableWord : decodeTableWord 16 0x6107 = some (.ldImm 1 7) ∧
    decodeTableWord 16 0xD125 = some (.drw 1 2 5) := by decide

/-- The encoder, on one word of each format. -/
theorem test_encode :
    encode .ret = 0x00EE ∧ encode (.call 0x300) = 0x2300 ∧ encode (.seImm 3 0x2A) = 0x332A ∧
      encode (.sub 1 2) = 0x8125 ∧ encode (.drw 1 2 5) = 0xD125 ∧ encode (.ldFVx 3) = 0xF329 := by decide

/-! ### States for the tests -/

/-- What a next state shows; none where there is none. -/
def seen {α : Type} (r : Result) (f : State → α) : Option α :=
  match r with
  | .next t => some (f t)
  | _ => none

/-- Reset, with some registers set. -/
def regs (l : List (Reg × Byte)) : State :=
  l.foldl (fun s p => s.writeV p.1 p.2) State.reset

/-- A state with bytes stored from an address on. -/
def stored (s : State) (a : Nat) (bs : List Byte) : State := { s with mem := Memory.putRun s.mem a bs }

/-- No key down. -/
def noKeys : TickInput := ⟨Vector.replicate 16 false, 0⟩

/-- The keys of a list down. -/
def keysDown (l : List Nat) : TickInput := ⟨l.foldl (fun v k => v.setIfInBounds k true) (Vector.replicate 16 false), 0⟩

/-- Waiting for a key, V5 to receive it. -/
def waiting : State := { State.reset with mode := .waitingForKey, waitReg := 5 }

/-- FE9: faulted, both timers running. -/
def faulted : State :=
  { State.reset with fault := some ⟨.stackUnderflow, 0x200⟩, dt := 7, st := 3, loadable := false }

/-- P8 after 16 ticks: a full stack, `2200` at PC. -/
def deep : State := { (State.reset.withFetchWord 16 0x2200) with stack := Vector.replicate 16 0x202, sp := 16 }

/-! ### Control flow -/

/-- CT1. -/
theorem test_jp : seen (exec (.jp 0xABC) State.reset) (·.pc) = some 0xABC := by decide

/-- CT4: the sixteenth call. -/
theorem test_call_sixteenth :
    seen (exec (.call 0x300) { State.reset with sp := 15 }) (fun t => (t.stack[15], t.sp, t.pc)) =
      some (0x202, 16, 0x300) := by decide

/-- CT5. -/
theorem test_call_overflow :
    seen (exec (.call 0x300) { State.reset with sp := 16 }) (fun t => (t.fault, t.sp, t.pc)) =
      some (some ⟨.stackOverflow, 0x200⟩, 16, 0x200) := by decide

/-- CT7. -/
theorem test_ret :
    seen (exec .ret { State.reset with sp := 1, stack := State.reset.stack.set 0 0x208, pc := 0x20E })
      (fun t => (t.sp, t.pc, t.stack[0])) = some (0, 0x208, 0x208) := by decide

/-- CT8. -/
theorem test_ret_underflow :
    seen (exec .ret State.reset) (fun t => (t.fault, t.sp, t.pc)) = some (some ⟨.stackUnderflow, 0x200⟩, 0, 0x200) := by
  decide

/-- CT9, CT16. -/
theorem test_seImm :
    seen (exec (.seImm 3 0x2A) (regs [(3, 0x2A)])) (·.pc) = some 0x204 ∧
      seen (exec (.seImm 3 0x2B) (regs [(3, 0x2A)])) (·.pc) = some 0x202 ∧
      seen (exec (.seImm 15 1) (regs [(15, 1)])) (·.pc) = some 0x204 := by decide

/-- CT10. -/
theorem test_sneImm :
    seen (exec (.sneImm 3 0x2A) (regs [(3, 0x2A)])) (·.pc) = some 0x202 ∧
      seen (exec (.sneImm 3 0x2B) (regs [(3, 0x2A)])) (·.pc) = some 0x204 := by decide

/-- CT11, CT12. -/
theorem test_seReg :
    seen (exec (.seReg 1 2) (regs [(1, 7), (2, 7)])) (·.pc) = some 0x204 ∧
      seen (exec (.seReg 1 1) (regs [(1, 9)])) (·.pc) = some 0x204 ∧
      seen (exec (.seReg 1 2) (regs [(1, 7), (2, 8)])) (·.pc) = some 0x202 := by decide

/-- CT13. -/
theorem test_sneReg :
    seen (exec (.sneReg 1 2) (regs [(1, 7), (2, 8)])) (·.pc) = some 0x204 ∧
      seen (exec (.sneReg 1 2) (regs [(1, 7), (2, 7)])) (·.pc) = some 0x202 := by decide

/-- CT14, CT15. -/
theorem test_jpV0 :
    seen (exec (.jpV0 0x300) (regs [(0, 4)])) (·.pc) = some 0x304 ∧
      seen (exec (.jpV0 0xFFF) (regs [(0, 0xFF)])) (·.pc) = some 0x10FE := by decide

/-- FE6. -/
theorem test_unknown :
    seen (exec (.unknown 0x5121) (regs [(1, 9), (2, 9)])) (fun t => (t.pc, t.unknownOpcode)) =
      some (0x202, some 0x5121) := by decide

/-! ### Loads and the ALU -/

/-- AL1. -/
theorem test_ldImm : seen (exec (.ldImm 10 0x2F) State.reset) (fun t => (t.v[10], t.pc)) = some (0x2F, 0x202) := by
  decide

/-- AL2, AL3. -/
theorem test_addImm :
    seen (exec (.addImm 1 0x20) (regs [(1, 0xF0)])) (·.v[1]) = some 0x10 ∧
      seen (exec (.addImm 1 1) (regs [(1, 0xFF), (15, 5)])) (fun t => (t.v[1], t.v[15])) = some (0, 5) := by decide

/-- AL4. -/
theorem test_ldReg : seen (exec (.ldReg 1 2) (regs [(2, 0x55)])) (·.v[1]) = some 0x55 := by decide

/-- AL5. -/
theorem test_or :
    seen (exec (.orReg 1 2) (regs [(1, 0xF0), (2, 0x0F), (15, 7)])) (fun t => (t.v[1], t.v[15])) = some (0xFF, 7) := by
  decide

/-- AL6. -/
theorem test_and :
    seen (exec (.andReg 1 2) (regs [(1, 0xFC), (2, 0x3F), (15, 7)])) (fun t => (t.v[1], t.v[15])) = some (0x3C, 7) := by
  decide

/-- AL7, AL8. -/
theorem test_xor :
    seen (exec (.xorReg 1 2) (regs [(1, 0xFF), (2, 0x0F), (15, 7)])) (fun t => (t.v[1], t.v[15])) = some (0xF0, 7) ∧
      seen (exec (.xorReg 1 1) (regs [(1, 0x5A)])) (·.v[1]) = some 0 := by decide

/-- S1, S2, AL10. -/
theorem test_addReg :
    seen (exec (.addReg 1 2) (regs [(1, 250), (2, 10)])) (fun t => (t.v[1], t.v[15])) = some (4, 1) ∧
      seen (exec (.addReg 1 2) (regs [(1, 1), (2, 1), (15, 1)])) (fun t => (t.v[1], t.v[15])) = some (2, 0) ∧
      seen (exec (.addReg 1 1) (regs [(1, 0x80)])) (fun t => (t.v[1], t.v[15])) = some (0, 1) := by decide

/-- AL11, AL12, AL13: VF as an operand. -/
theorem test_addReg_vf :
    seen (exec (.addReg 15 1) (regs [(15, 200), (1, 100)])) (·.v[15]) = some 1 ∧
      seen (exec (.addReg 15 1) (regs [(15, 3), (1, 4)])) (·.v[15]) = some 0 ∧
      seen (exec (.addReg 1 15) (regs [(1, 250), (15, 10)])) (fun t => (t.v[1], t.v[15])) = some (4, 1) := by decide

/-- S3, S4, AL14. -/
theorem test_sub :
    seen (exec (.sub 1 2) (regs [(1, 5), (2, 3)])) (fun t => (t.v[1], t.v[15])) = some (2, 1) ∧
      seen (exec (.sub 1 2) (regs [(1, 3), (2, 5), (15, 1)])) (fun t => (t.v[1], t.v[15])) = some (254, 0) ∧
      seen (exec (.sub 1 2) (regs [(1, 7), (2, 7), (15, 1)])) (fun t => (t.v[1], t.v[15])) = some (0, 0) := by decide

/-- AL15, AL17, AL19. -/
theorem test_sub_vf :
    seen (exec (.sub 15 3) (regs [(15, 10), (3, 4)])) (·.v[15]) = some 253 ∧
      seen (exec (.sub 1 15) (regs [(1, 9), (15, 4)])) (fun t => (t.v[1], t.v[15])) = some (8, 1) ∧
      seen (exec (.sub 15 15) (regs [(15, 9)])) (·.v[15]) = some 0 := by decide

/-- AL25, AL26. -/
theorem test_shr :
    seen (exec (.shr 1 0) (regs [(1, 5)])) (fun t => (t.v[1], t.v[15])) = some (2, 1) ∧
      seen (exec (.shr 1 7) (regs [(1, 1), (7, 0xAA)])) (fun t => (t.v[1], t.v[15], t.v[7])) = some (0, 1, 0xAA) := by
  decide

/-- AL27, AL28. -/
theorem test_shr_vf :
    seen (exec (.shr 1 0) (regs [(1, 0xFE), (15, 1)])) (fun t => (t.v[1], t.v[15])) = some (0x7F, 0) ∧
      seen (exec (.shr 15 0) (regs [(15, 0xFF)])) (·.v[15]) = some 0 := by decide

/-- AL20, AL21, AL22. -/
theorem test_subn :
    seen (exec (.subn 1 2) (regs [(1, 3), (2, 5)])) (fun t => (t.v[1], t.v[15])) = some (2, 1) ∧
      seen (exec (.subn 1 2) (regs [(1, 5), (2, 3), (15, 1)])) (fun t => (t.v[1], t.v[15])) = some (254, 0) ∧
      seen (exec (.subn 1 2) (regs [(1, 7), (2, 7), (15, 1)])) (fun t => (t.v[1], t.v[15])) = some (0, 0) := by decide

/-- AL23, AL24. -/
theorem test_subn_vf :
    seen (exec (.subn 15 3) (regs [(15, 4), (3, 10)])) (·.v[15]) = some 9 ∧
      seen (exec (.subn 1 15) (regs [(1, 4), (15, 9)])) (fun t => (t.v[1], t.v[15])) = some (253, 1) := by decide

/-- AL29, AL31. -/
theorem test_shl :
    seen (exec (.shl 1 0) (regs [(1, 0x81)])) (fun t => (t.v[1], t.v[15])) = some (2, 1) ∧
      seen (exec (.shl 1 0) (regs [(1, 0x7F), (15, 1)])) (fun t => (t.v[1], t.v[15])) = some (0xFE, 0) := by decide

/-- AL32, AL33. -/
theorem test_shl_vf :
    seen (exec (.shl 15 0) (regs [(15, 0x80)])) (·.v[15]) = some 2 ∧
      seen (exec (.shl 15 0) (regs [(15, 0x7F)])) (·.v[15]) = some 0 := by decide

/-- AL34, AL35. -/
theorem test_rnd :
    seen (exec (.rnd 1 0x0F) { State.reset with rand := 0xB7 }) (·.v[1]) = some 7 ∧
      seen (exec (.rnd 1 0) { regs [(1, 9)] with rand := 0xFF }) (·.v[1]) = some 0 := by decide

/-! ### Index register and memory -/

/-- MX1. -/
theorem test_ldI : seen (exec (.ldI 0x2F0) State.reset) (·.index) = some 0x2F0 := by decide

/-- MX2, MX3, MX6. -/
theorem test_addIVx :
    seen (exec (.addIVx 1) { regs [(1, 1), (15, 1)] with index := 0x0EFF }) (fun t => (t.index, t.v[15])) =
        some (0x0F00, 0) ∧
      seen (exec (.addIVx 1) { regs [(1, 1)] with index := 0x0F00 }) (fun t => (t.index, t.v[15])) =
        some (0x0F01, 1) ∧
      seen (exec (.addIVx 1) { regs [(1, 1), (15, 1)] with index := 0xFFFF }) (fun t => (t.index, t.v[15])) =
        some (0, 0) := by decide

/-- MX7, MX8. -/
theorem test_addIVx_vf :
    seen (exec (.addIVx 15) { regs [(15, 1)] with index := 0x0F00 }) (fun t => (t.index, t.v[15])) =
        some (0x0F01, 1) ∧
      seen (exec (.addIVx 15) { regs [(15, 0x10)] with index := 0x0100 }) (fun t => (t.index, t.v[15])) =
        some (0x0110, 0) := by decide

/-- MX11. -/
theorem test_ldFVx :
    seen (exec (.ldFVx 3) (regs [(3, 0x0A)])) (·.index) = some 0x32 ∧
      seen (exec (.ldFVx 3) (regs [(3, 16)])) (·.index) = some 0x50 ∧
      seen (exec (.ldFVx 3) (regs [(3, 255)])) (·.index) = some 0x4FB := by decide

/-- MX13. -/
theorem test_ldBVx :
    seen (exec (.ldBVx 0) { regs [(0, 234)] with index := 0xFFD })
      (fun t => (t.fault, [0xFFD, 0xFFE, 0xFFF].map (Memory.read t.mem))) = some (none, [some 2, some 3, some 4]) := by
  decide

/-- MX14, MX15. -/
theorem test_ldBVx_fault :
    seen (exec (.ldBVx 0) { regs [(0, 234)] with index := 0xFFE }) (fun t => (t.fault, t.mem, t.pc)) =
        some (some ⟨.memoryFault, 0x1000⟩, [], 0x200) ∧
      seen (exec (.ldBVx 0) { regs [(0, 234)] with index := 0x1005 }) (·.fault) =
        some (some ⟨.memoryFault, 0x1005⟩) := by decide

/-- MX16. -/
theorem test_ldMemVx :
    seen (exec (.ldMemVx 2) { regs [(0, 1), (1, 2), (2, 3), (3, 9)] with index := 0x400 })
      (fun t => ([0x400, 0x401, 0x402, 0x403].map (Memory.read t.mem), t.index)) =
        some ([some 1, some 2, some 3, some 0], 0x400) := by decide

/-- MX18: not even the bytes that would fit. -/
theorem test_ldMemVx_fault :
    seen (exec (.ldMemVx 15) { regs [(0, 1), (15, 16)] with index := 0xFF1 }) (fun t => (t.fault, t.mem)) =
      some (some ⟨.memoryFault, 0x1000⟩, []) := by decide

/-- MX9. -/
theorem test_ldVxMem :
    seen (exec (.ldVxMem 2) (stored { regs [(3, 0x77)] with index := 0x400 } 0x400 [0x0A, 0x0B, 0x0C, 0x0D]))
      (fun t => (t.v[0], t.v[1], t.v[2], t.v[3], t.index)) = some (0x0A, 0x0B, 0x0C, 0x77, 0x400) := by decide

/-- MX19. -/
theorem test_ldVxMem_fault :
    seen (exec (.ldVxMem 1) { regs [(0, 5), (1, 6)] with index := 0xFFF }) (fun t => (t.fault, t.v[0], t.v[1])) =
      some (some ⟨.memoryFault, 0x1000⟩, 5, 6) := by decide

/-- MX10: the compatibility form. -/
theorem test_loadRegsCompat :
    seen ((stored { regs [(3, 0x77)] with index := 0x400 } 0x400 [0x0A, 0x0B, 0x0C, 0x0D]).loadRegsCompat 2)
      (fun t => (t.v[0], t.v[1], t.v[2], t.v[3])) = some (0x0B, 0x0B, 0x0B, 0x77) := by decide

/-! ### Display -/

/-- DP1. -/
theorem test_cls :
    seen (exec .cls { regs [(15, 1)] with disp := Display.setPixel Display.blank 31 63 true })
      (fun t => (Display.pixel t.disp 31 63, t.dirty, t.v[15])) = some (false, true, 1) := by decide

/-- S7: the sprite wraps around the corner. -/
theorem test_drw_wraps :
    seen (exec (.drw 0 1 1) (stored { regs [(0, 63), (1, 31)] with index := 0x300 } 0x300 [0xFF]))
      (fun t => (Display.pixel t.disp 31 63, Display.pixel t.disp 31 0, Display.pixel t.disp 31 6,
        Display.pixel t.disp 31 7, Display.pixel t.disp 0 0, t.v[15])) =
      some (true, true, true, false, false, 0) := by decide

/-- DP13: VF as the column register. -/
theorem test_drw_vf :
    seen (exec (.drw 15 1 1) (stored { regs [(15, 5)] with
        index := 0x300, disp := Display.setPixel Display.blank 0 2 true } 0x300 [0xFF]))
      (fun t => ((List.finRange 10).map (fun c : Fin 10 => Display.pixel t.disp 0 ⟨c.val, by omega⟩), t.v[15])) =
      some ([true, true, false, false, true, true, true, true, true, false], 1) := by decide

/-! ### Keys and timers -/

/-- KY1, KY2. -/
theorem test_skp :
    seen (exec (.skp 2) { regs [(2, 10)] with keys := (keysDown [10]).keys }) (·.pc) = some 0x204 ∧
      seen (exec (.skp 2) { regs [(2, 10)] with keys := (keysDown [11]).keys }) (·.pc) = some 0x202 := by decide

/-- KY4. -/
theorem test_skp_fault :
    seen (exec (.skp 2) { regs [(2, 16)] with keys := (keysDown [0]).keys }) (fun t => (t.fault, t.pc)) =
      some (some ⟨.keyIndexFault, 16⟩, 0x200) := by decide

/-- KY3. -/
theorem test_sknp :
    seen (exec (.sknp 2) { regs [(2, 10)] with keys := (keysDown [10]).keys }) (·.pc) = some 0x202 ∧
      seen (exec (.sknp 2) (regs [(2, 10)])) (·.pc) = some 0x204 := by decide

/-- KY5. -/
theorem test_sknp_fault :
    seen (exec (.sknp 2) (regs [(2, 255)])) (·.fault) = some (some ⟨.keyIndexFault, 255⟩) := by decide

/-- KY6: the timer runs before the instruction. -/
theorem test_ldVxDt :
    seen (tick noKeys ({ State.reset with dt := 0x10 }.withFetchWord 16 0xF307)) (fun t => (t.dt, t.v[3])) =
      some (0x0F, 0x0F) := by decide

/-- KY8, first tick. -/
theorem test_ldDtVx :
    seen (tick noKeys ((regs [(1, 0x3C)]).withFetchWord 16 0xF115)) (·.dt) = some 0x3C := by decide

/-- KY10. -/
theorem test_ldStVx :
    seen (tick noKeys ({ State.reset with st := 5 }.withFetchWord 16 0xF118)) (fun t => (t.st, t.outputs.soundActive)) =
      some (0, false) := by decide

/-- KY11, first tick: the key of this tick is not examined. -/
theorem test_ldVxK :
    seen (tick (keysDown [3]) (State.reset.withFetchWord 16 0xF50A)) (fun t => (t.mode, t.waitReg, t.pc, t.v[5])) =
      some (.waitingForKey, 5, 0x200, 0) := by decide

/-! ### The tick -/

/-- FE1: the high byte at the lower address. -/
theorem test_tick_fetches_high_byte_first :
    seen (tick noKeys (stored State.reset 0x200 [0x61, 0x07])) (fun t => (t.v[1], t.pc)) = some (7, 0x202) := by decide

/-- FE2: an odd PC. -/
theorem test_tick_odd_pc :
    seen (tick noKeys (stored { State.reset with pc := 0x201 } 0x201 [0x61, 0x07])) (fun t => (t.v[1], t.pc)) =
      some (7, 0x203) := by decide

/-- FE3, FE4. -/
theorem test_tick_fetch_faults :
    seen (tick noKeys { State.reset with pc := 0xFFF }) (fun t => (t.fault, t.pc)) =
        some (some ⟨.memoryFault, 0x1000⟩, 0xFFF) ∧
      seen (tick noKeys { State.reset with pc := 0x1234 }) (fun t => (t.fault, t.pc)) =
        some (some ⟨.memoryFault, 0x1234⟩, 0x1234) := by decide

/-- FE5, first tick, and LR5: empty memory at PC is an unknown opcode. -/
theorem test_tick_unknown :
    seen (tick noKeys { State.reset with pc := 0xFFE }) (fun t => (t.pc, t.unknownOpcode, t.fault)) =
      some (0x1000, some 0, none) := by decide

/-- KY12, third tick: the lowest key wins. -/
theorem test_tick_wait_ends :
    seen (tick (keysDown [12, 15]) { waiting with waitReg := 15 }) (fun t => (t.v[15], t.mode, t.pc)) =
      some (12, .running, 0x202) := by decide

/-- LR1. -/
theorem test_reset_font :
    ([0, 1, 2, 3, 4, 0x4B, 0x4C, 0x4D, 0x4E, 0x4F, 0x50].map (Memory.read State.reset.mem)) =
      ([0xF0, 0x90, 0x90, 0x90, 0xF0, 0xF0, 0x80, 0xF0, 0x80, 0x80, 0] : List Byte).map some := by decide

/-- The fault codes of 60_exceptions.md R201. -/
theorem test_fault_codes :
    State.reset.faultCode = 0 ∧ FaultKind.code .stackOverflow = 1 ∧ FaultKind.code .stackUnderflow = 2 ∧
      FaultKind.code .memoryFault = 3 ∧ FaultKind.code .keyIndexFault = 4 := by decide

/-- LR2. -/
theorem test_load :
    (match State.reset.load [0x12, 0x34, 0x56] with
      | .next (t, r) => some ([0x200, 0x201, 0x202, 0x203].map (Memory.read t.mem), r.truncated)
      | _ => none) = some ([some 0x12, some 0x34, some 0x56, some 0], false) := by decide

/-! ### Witnesses: the hypotheses of the statements can be met, at the edges of their ranges -/

theorem test_witness_round_trip :
    (Instr.unknown 0xFFFF).wellFormed = true ∧ (Instr.ldVxMem 15).wellFormed = true := by decide

/-- Every row's own pattern selects it, and some word selects none. -/
theorem test_witness_opcode_map :
    opcodeMap.all (fun r => r.selects r.pattern) = true ∧ isUnknownWord 0 = true ∧ isUnknownWord 0xFFFF = true := by
  decide

theorem test_witness_reset_inv : State.reset.Inv :=
  ⟨rfl, by decide, by decide, by decide, fun h => absurd rfl h⟩

/-- A waiting state at the last address a wait can be fetched from, and a faulted state above memory. -/
theorem test_witness_inv_edges :
    ({ waiting with pc := 0xFFE } : State).Inv ∧ ({ faulted with pc := 0x10FE } : State).Inv :=
  ⟨⟨rfl, by decide, by decide, by decide, fun h => absurd rfl h⟩,
    ⟨rfl, by decide, by decide, by decide, fun _ => by decide⟩⟩

theorem test_witness_inv_next : (∃ t, tick noKeys State.reset = .next t) ∧ ∃ t, step faulted = .next t :=
  ⟨⟨_, rfl⟩, ⟨_, rfl⟩⟩

theorem test_witness_load :
    State.reset.Inv ∧ State.reset.loadable = true ∧ faulted.Inv ∧ faulted.loadable = false ∧ State.reset.safe ∧
      ∃ t, tick noKeys State.reset = .next t :=
  ⟨test_witness_reset_inv, rfl, ⟨rfl, by decide, by decide, by decide, fun _ => by decide⟩, rfl, rfl, _, rfl⟩

theorem test_witness_step_runs :
    let s := State.reset.withFetchWord 16 0x8124
    s.safe ∧ s.mode = .running ∧ Memory.read s.mem s.pc.toNat = some 0x81 ∧
      Memory.read s.mem (s.pc.toNat + 1) = some 0x24 ∧ decodeBytes [0x81, 0x24] = .ok (.addReg 1 2, []) := by
  refine ⟨rfl, rfl, by decide, by decide, rfl⟩

theorem test_witness_fetch_above :
    ({ State.reset with pc := 0xFFF } : State).safe ∧ ({ State.reset with pc := 0xFFF } : State).mode = .running ∧
      0xFFE < (0xFFF : Word).toNat ∧ ({ State.reset with pc := 0x1000 } : State).safe ∧
      0xFFF < (0x1000 : Word).toNat := by decide

theorem test_witness_faulted : ¬ faulted.safe ∧ tick noKeys faulted = .next faulted := ⟨by decide, rfl⟩

/-- The four clauses of the PC statement: a faulted machine, a tick that faults, a wait with and without a key, and
an executed skip. -/
theorem test_witness_pc_clauses :
    ¬ faulted.safe ∧ seen (tick noKeys deep) (fun t => decide t.safe) = some false ∧
      (waiting.safe ∧ waiting.mode = .waitingForKey) ∧
      seen (tick noKeys waiting) (·.pc) = some 0x200 ∧ seen (tick (keysDown [15]) waiting) (·.pc) = some 0x202 ∧
      seen (tick noKeys (State.reset.withFetchWord 16 0x3000)) (fun t => (decide t.safe, t.pc)) =
        some (true, 0x204) := by decide

theorem test_witness_outputs : State.reset.safe ∧ ∃ p, tickPort noKeys State.reset = .next p := ⟨rfl, _, rfl⟩

/-- A tick that shows a display and one that shows an unknown opcode. -/
theorem test_witness_outputs_clauses :
    seen (tick noKeys (State.reset.withFetchWord 16 0x00E0)) (fun t => t.outputs.display.isSome) = some true ∧
      seen (tick noKeys (State.reset.withFetchWord 16 0x5121)) (fun t => t.outputs.unknownOpcode) =
        some (some 0x5121) ∧ isUnknownWord 0x5121 = true := by decide

/-- A tick that executes no RND, with two random bytes. -/
theorem test_witness_random :
    (∀ op x kk, Memory.fetch16 State.reset.mem State.reset.pc.toNat = some op → decode op ≠ .rnd x kk) ∧
      (∃ t, tick ⟨State.reset.keys, 1⟩ State.reset = .next t) ∧
      ∃ t, tick ⟨State.reset.keys, 255⟩ State.reset = .next t := by
  refine ⟨fun op x kk h => ?_, ⟨_, rfl⟩, ⟨_, rfl⟩⟩
  have h0 : Memory.fetch16 State.reset.mem State.reset.pc.toNat = some 0 := by decide
  rw [h0] at h
  cases h
  exact fun h => nomatch h

theorem test_witness_finished : (State.reset.withFetchWord 16 0x1200).finished :=
  ⟨0x1200, 0x200, by decide, by decide, by decide, rfl, rfl⟩

theorem test_witness_exec_next : ∃ t, exec (.drw 15 15 15) State.reset = .next t := ⟨_, rfl⟩

/-- Every fault of the table, and none of it one step inside the bounds. -/
theorem test_witness_fault_table :
    faultOf (.call 0) deep = some ⟨.stackOverflow, 0x200⟩ ∧
      faultOf .ret State.reset = some ⟨.stackUnderflow, 0x200⟩ ∧
      faultOf (.drw 0 0 15) { State.reset with index := 0xFF2 } = some ⟨.memoryFault, 0x1000⟩ ∧
      faultOf (.skp 2) (regs [(2, 16)]) = some ⟨.keyIndexFault, 16⟩ ∧
      faultOf (.drw 0 0 15) { State.reset with index := 0xFF1 } = none ∧
      faultOf (.drw 0 0 0) { State.reset with index := 0xFFFF } = none ∧
      faultOf (.skp 2) (regs [(2, 15)]) = none ∧ faultOf (.call 0) { State.reset with sp := 15 } = none := by decide

theorem test_witness_precise :
    deep.safe ∧ seen (tick noKeys deep) (·.fault) = some (some ⟨.stackOverflow, 0x200⟩) := by decide

theorem test_witness_stack :
    (15 : Fin 17).val < 16 ∧ deep.sp.val = 16 ∧ State.reset.sp.val = 0 ∧
      (0 < deep.sp.val ∧ deep.stack[deep.sp.val - 1]? = some 0x202) := by decide

theorem test_witness_vf : (0 : Reg) ≠ 15 ∧ (14 : Reg) ≠ 15 := by decide

/-- The ends of memory for the three-byte store, and the first addresses past them. -/
theorem test_witness_bcd :
    Memory.wf State.reset.mem = true ∧ (0xFFD : Word).toNat + 2 ≤ 0xFFF ∧ 0xFFF < (0xFFE : Word).toNat + 2 ∧
      0xFFF < (0x1000 : Word).toNat := by decide

/-- The ends of memory for runs of one and of sixteen bytes. -/
theorem test_witness_runs :
    Memory.wf State.reset.mem = true ∧ (0xFFF : Word).toNat + (0 : Reg).val ≤ 0xFFF ∧
      (0xFF0 : Word).toNat + (15 : Reg).val ≤ 0xFFF ∧ 0xFFF < (0xFF1 : Word).toNat + (15 : Reg).val ∧
      0xFFF < (0x1000 : Word).toNat + (0 : Reg).val := by decide

theorem test_witness_compat :
    Memory.read State.reset.mem ((0xFFE : Word).toNat + 1) = some 0 ∧ 0xFFF < (0xFFF : Word).toNat + 1 := by decide

/-- A store followed by a load of the same registers, the others kept. -/
theorem test_witness_load_back :
    let s := { regs [(0, 1), (2, 3)] with index := 0x400 }
    Memory.wf s.mem = true ∧ s.index.toNat + (1 : Reg).val ≤ 0xFFF ∧ (∃ t, exec (.ldMemVx 1) s = .next t) ∧
      ∀ k : Reg, 1 < k → ((s.v.set 0 7).set 1 9)[k.val] = s.v[k.val] :=
  ⟨by decide, by decide, ⟨_, rfl⟩, by decide⟩

/-- MX20: the instruction overwrites itself. P2's BCD store at the end of memory (MX13), fetched at its last two bytes
and at a byte before it. -/
theorem test_witness_stores_seen :
    (let s := { (regs [(0, 0x12)]) with index := 0x200 }
     Memory.wf s.mem = true ∧ s.index.toNat + (1 : Reg).val ≤ 0xFFF ∧
      seen (exec (.ldMemVx 1) s) (fun t => Memory.fetch16 t.mem 0x200) = some (some 0x1200)) ∧
    (let s := { (regs [(0, 234)]) with index := 0xFFD }
     Memory.wf s.mem = true ∧ s.index.toNat + 2 ≤ 0xFFF ∧
      seen (exec (.ldBVx 0) s) (fun t => (Memory.fetch16 t.mem 0xFFE, Memory.fetch16 t.mem 0xFFC)) =
        some (some 0x0304, some 0x0002)) := by decide

/-- The next tick after a store is a tick that finds its memory: a state it leaves is unfaulted, runs, and may have any
address in PC up to 0xFFE. -/
theorem test_witness_stores_seen_tick :
    seen (exec (.ldMemVx 15) { State.reset with index := 0xFF0 })
      (fun t => (decide t.safe, t.mode, decide (({ t with pc := 0xFFE } : State).mem = t.mem))) =
        some (true, .running, true) ∧
      (0xFFE : Word).toNat ≤ 0xFFE := by decide

theorem test_witness_draw_bounds :
    ((0 : BitVec 4) = 0) ∧ (0xFFF : Word).toNat + ((1 : BitVec 4).toNat - 1) ≤ 0xFFF ∧
      0xFFF < (0xFFF : Word).toNat + ((2 : BitVec 4).toNat - 1) ∧ (0 : Reg) ≠ 15 ∧ (14 : Reg) ≠ 15 := by decide

/-- S6: two draws of one sprite. -/
theorem test_witness_draw_twice :
    let s := { State.reset with index := 0x32 }
    (0 : Reg) ≠ 15 ∧ s.index.toNat + ((5 : BitVec 4).toNat - 1) ≤ 0xFFF ∧
      ∃ t u, exec (.drw 0 0 5) s = .next t ∧ exec (.drw 0 0 5) t = .next u :=
  ⟨by decide, by decide, _, _, rfl, rfl⟩

/-- The clauses of the timer statement: a running tick that writes no timer, and TM2's waiting tick. -/
theorem test_witness_timers :
    Memory.fetch16 State.reset.mem State.reset.pc.toNat = some 0 ∧ decode 0 = .unknown 0 ∧
      seen (tick noKeys { waiting with dt := 3, st := 2 }) (fun t => (t.dt, t.st)) = some (2, 1) ∧
      seen (tick noKeys faulted) (fun t => (t.dt, t.st)) = some (7, 3) := by decide

theorem test_witness_keys :
    (regs [(2, 15)]).v[(2 : Reg).val].toNat ≤ 15 ∧ State.reset.keys[15]? = some false ∧
      15 < (regs [(2, 16)]).v[(2 : Reg).val].toNat := by decide

theorem test_witness_wait :
    waiting.safe ∧ waiting.mode = .waitingForKey ∧ (∀ k : Reg, noKeys.keys[k.val] = false) ∧
      ((keysDown [0]).keys[(0 : Reg).val] = true ∧ ∀ j : Reg, j < 0 → (keysDown [0]).keys[j.val] = false) ∧
      ((keysDown [15]).keys[(15 : Reg).val] = true ∧ ∀ j : Reg, j < 15 → (keysDown [15]).keys[j.val] = false) := by
  decide

theorem test_witness_wait_round_trip :
    let s := State.reset.withFetchWord 16 0xF50A
    s.safe ∧ s.mode = .running ∧ Memory.fetch16 s.mem s.pc.toNat = some 0xF50A ∧ decode 0xF50A = .ldVxK 5 ∧
      (∀ inp ∈ [noKeys, noKeys], ∀ j : Reg, inp.keys[j.val] = false) ∧
      (keysDown [9]).keys[(9 : Reg).val] = true ∧ ∀ j : Reg, j < 9 → (keysDown [9]).keys[j.val] = false := by
  decide

end Sys2Proof.Tests
end

section
/-! PROOFS. 10_state.md. What executing one instruction can do to the state, said once (`Effect`); then the access
matrix of R33, column by column; then the machine invariant over ticks and steps, and the state after reset. -/

namespace Sys2Proof.Machine

/-! ### What one instruction does -/

/-- The states an instruction can leave: the record update names the columns it may write (10_state.md R33). It is a
frame with the values the invariant needs; it does not give the results of the ALU, the register load and the draw,
nor say when an instruction faults. -/
inductive Effect (s : State) : Instr → State → Prop where
  /-- A fault: the fault register, nothing else (60_exceptions.md R205). -/
  | fault {i} (f : FaultRecord) : Effect s i { s with fault := some f }
  /-- Loads of registers and the ALU (42_load_alu.md), LD Vx, DT and LD Vx, [I]. -/
  | regs {i} (v : Vector Byte 16) (hv : ∀ z : Reg, writesReg i z = false → v[z.val] = s.v[z.val]) :
      Effect s i { s with v := v, pc := s.pc + 2 }
  /-- The conditional skips, whether they skip or not (41 R114 to R117, 45 R186, R187). -/
  | skip {i} (c : Bool) : Effect s i { s with pc := s.pc + if c then 4 else 2 }
  | jp (nnn : BitVec 12) : Effect s (.jp nnn) { s with pc := addrWord nnn }
  | jpV0 (nnn : BitVec 12) : Effect s (.jpV0 nnn) { s with pc := addrWord nnn + byteWord (s.readV 0) }
  | call (nnn : BitVec 12) (h : s.sp.val < 16) :
      Effect s (.call nnn) { s with
        stack := s.stack.set s.sp.val (s.pc + 2), sp := ⟨s.sp.val + 1, by omega⟩, pc := addrWord nnn }
  | ret (h : 0 < s.sp.val) :
      Effect s .ret { s with sp := ⟨s.sp.val - 1, by omega⟩, pc := s.stack[s.sp.val - 1]'(by omega) }
  | ldI (nnn : BitVec 12) : Effect s (.ldI nnn) { s with index := addrWord nnn, pc := s.pc + 2 }
  | ldFVx (x : Reg) : Effect s (.ldFVx x) { s with index := glyphAddr (s.readV x), pc := s.pc + 2 }
  | addIVx (x : Reg) :
      Effect s (.addIVx x) { s with
        index := s.index + byteWord (s.readV x)
        v := s.v.set vf.val (indexFlag (s.index + byteWord (s.readV x)))
        pc := s.pc + 2 }
  /-- The stores LD B, Vx and LD [I], Vx (43_index_memory.md R153, R154). -/
  | store {i} (hi : (∃ x, i = .ldBVx x) ∨ ∃ x, i = .ldMemVx x) (bs : List Byte)
      (hfit : bs.length = 0 ∨ s.index.toNat + bs.length ≤ Config.memSize) :
      Effect s i { s with mem := Memory.putRun s.mem s.index.toNat bs, pc := s.pc + 2 }
  | ldDtVx (x : Reg) : Effect s (.ldDtVx x) { s with dt := s.readV x, pc := s.pc + 2 }
  | ldStVx (x : Reg) : Effect s (.ldStVx x) { s with st := s.readV x, pc := s.pc + 2 }
  | ldVxK (x : Reg) : Effect s (.ldVxK x) { s with mode := .waitingForKey, waitReg := x }
  | cls : Effect s .cls { s with disp := Display.blank, dirty := true, pc := s.pc + 2 }
  | drw (x y : Reg) (n : BitVec 4) (v : Vector Byte 16) (d : Display)
      (hv : ∀ z : Reg, z ≠ vf → v[z.val] = s.v[z.val]) :
      Effect s (.drw x y n) { s with v := v, disp := d, dirty := true, pc := s.pc + 2 }
  | unknown (op : Word) : Effect s (.unknown op) { s with unknownOpcode := some op, pc := s.pc + 2 }

section
variable {s : State} {i : Instr}

/-- One register written, then Next. -/
theorem Effect.of_writeV {x : Reg} (hw : ∀ z, writesReg i z = (z == x)) (b : Byte) :
    Effect s i ((s.writeV x b).flow .next) := by
  refine .regs _ fun z hz => ?_
  have hx : x ≠ z := (ne_of_beq_false ((hw z).symm.trans hz)).symm
  exact (s.readV_writeV_ne b hx :)

/-- Two registers written, then Next. -/
theorem Effect.of_writeV_writeV {x y : Reg} (hxy : ∀ z, writesReg i z = false → z ≠ x ∧ z ≠ y) (b c : Byte) :
    Effect s i (((s.writeV x b).writeV y c).flow .next) := by
  refine .regs _ fun z hz => ?_
  obtain ⟨hx, hy⟩ := hxy z hz
  exact (((s.writeV x b).readV_writeV_ne c hy.symm).trans (s.readV_writeV_ne b hx.symm) :)

/-- SUB, SUBN, SHR and SHL: VF, then the destination. -/
theorem Effect.of_flagThen {x : Reg} (hw : ∀ z, writesReg i z = (z == x || z == vf)) (flag : Byte) (y : Reg)
    (f : Byte → Byte → Byte) : Effect s i (s.flagThen flag x y f) :=
  .of_writeV_writeV (fun z hz => by simpa [hw, and_comm] using hz) flag _

/-- The end of a conditional skip. -/
theorem Effect.of_skipIf (c : Bool) : Effect s i (s.skipIf c) := by
  cases c
  · exact .skip false
  · exact .skip true

/-- A store at I: the bytes are written, or the fault. -/
theorem storeAtIndex_effect (hi : (∃ x, i = .ldBVx x) ∨ ∃ x, i = .ldMemVx x) (bs : List Byte) :
    ∃ t, s.storeAtIndex bs = .next t ∧ Effect s i t := by
  rw [State.storeAtIndex_eq]
  split
  · next hfit => exact ⟨_, rfl, .store hi bs hfit⟩
  · exact ⟨_, rfl, .fault _⟩

/-- The register load at I: V0 to Vx are filled, or the fault. -/
theorem loadRegs_effect (x : Reg) : ∃ t, s.loadRegs x = .next t ∧ Effect s (.ldVxMem x) t := by
  rw [State.loadRegs_eq]
  split
  · refine ⟨_, rfl, .regs _ fun z hz => ?_⟩
    have hxz : x.val < z.val := by simpa [writesReg] using hz
    rw [getElem_fillV, if_neg (by simp; omega)]
  · exact ⟨_, rfl, .fault _⟩

/-- The draw: registers other than VF are left alone, or the fault. -/
theorem execDrw_effect (x y : Reg) (n : BitVec 4) : ∃ t, execDrw x y n s = .next t ∧ Effect s (.drw x y n) t := by
  rw [execDrw_eq]
  split
  · rw [drawRows_frame]
    refine ⟨_, rfl, .drw x y n _ _ fun z hz => ?_⟩
    exact ((readV_drawRows hz x y _ 0 _).trans (s.readV_writeV_ne 0 hz.symm) :)
  · exact ⟨_, rfl, .fault _⟩

theorem execSkp_effect (x : Reg) :
    (∃ t, execSkp x s = .next t ∧ Effect s (.skp x) t) ∧ ∃ t, execSknp x s = .next t ∧ Effect s (.sknp x) t := by
  rcases Nat.lt_or_ge (s.readV x).toNat 16 with h | h
  · obtain ⟨hskp, hsknp⟩ := execSkp_of_lt h
    exact ⟨⟨_, hskp, .of_skipIf _⟩, _, hsknp, .of_skipIf _⟩
  · obtain ⟨hskp, hsknp⟩ := execSkp_of_ge h
    exact ⟨⟨_, hskp, .fault _⟩, _, hsknp, .fault _⟩

theorem execCall_effect (nnn : BitVec 12) : ∃ t, execCall nnn s = .next t ∧ Effect s (.call nnn) t := by
  by_cases h : s.sp.val < 16
  · exact ⟨_, execCall_of_lt h nnn, .call nnn h⟩
  · exact ⟨_, execCall_of_full h nnn, .fault _⟩

theorem execRet_effect : ∃ t, execRet s = .next t ∧ Effect s .ret t := by
  by_cases h : 0 < s.sp.val
  · exact ⟨_, execRet_of_pos h, .ret h⟩
  · exact ⟨_, execRet_of_empty h, .fault _⟩

end

/-- Every instruction answers a next state, and it is one that `Effect` allows. -/
theorem exec_effect (i : Instr) (s : State) : ∃ t, exec i s = .next t ∧ Effect s i t := by
  cases i with
  | cls => exact ⟨_, rfl, .cls⟩
  | ret => exact execRet_effect
  | jp nnn => exact ⟨_, rfl, .jp nnn⟩
  | call nnn => exact execCall_effect nnn
  | seImm x kk => exact ⟨_, rfl, .of_skipIf _⟩
  | sneImm x kk => exact ⟨_, rfl, .of_skipIf _⟩
  | seReg x y => exact ⟨_, rfl, .of_skipIf _⟩
  | ldImm x kk => exact ⟨_, rfl, .of_writeV (fun _ => rfl) _⟩
  | addImm x kk => exact ⟨_, rfl, .of_writeV (fun _ => rfl) _⟩
  | ldReg x y => exact ⟨_, rfl, .of_writeV (fun _ => rfl) _⟩
  | orReg x y => exact ⟨_, rfl, .of_writeV (fun _ => rfl) _⟩
  | andReg x y => exact ⟨_, rfl, .of_writeV (fun _ => rfl) _⟩
  | xorReg x y => exact ⟨_, rfl, .of_writeV (fun _ => rfl) _⟩
  | addReg x y => exact ⟨_, rfl, .of_writeV_writeV (fun z hz => by simpa [writesReg, vf] using hz) _ _⟩
  | sub x y => exact ⟨_, rfl, .of_flagThen (fun _ => rfl) _ _ _⟩
  | shr x y => exact ⟨_, rfl, .of_flagThen (fun _ => rfl) _ _ _⟩
  | subn x y => exact ⟨_, rfl, .of_flagThen (fun _ => rfl) _ _ _⟩
  | shl x y => exact ⟨_, rfl, .of_flagThen (fun _ => rfl) _ _ _⟩
  | sneReg x y => exact ⟨_, rfl, .of_skipIf _⟩
  | ldI nnn => exact ⟨_, rfl, .ldI nnn⟩
  | jpV0 nnn => exact ⟨_, rfl, .jpV0 nnn⟩
  | rnd x kk => exact ⟨_, rfl, .of_writeV (fun _ => rfl) _⟩
  | drw x y n => exact execDrw_effect x y n
  | skp x => exact (execSkp_effect x).1
  | sknp x => exact (execSkp_effect x).2
  | ldVxDt x => exact ⟨_, rfl, .of_writeV (fun _ => rfl) _⟩
  | ldVxK x => exact ⟨_, rfl, .ldVxK x⟩
  | ldDtVx x => exact ⟨_, rfl, .ldDtVx x⟩
  | ldStVx x => exact ⟨_, rfl, .ldStVx x⟩
  | addIVx x => exact ⟨_, rfl, .addIVx x⟩
  | ldFVx x => exact ⟨_, rfl, .ldFVx x⟩
  | ldBVx x => exact storeAtIndex_effect (.inl ⟨x, rfl⟩) _
  | ldMemVx x => exact storeAtIndex_effect (.inr ⟨x, rfl⟩) _
  | ldVxMem x =>
    obtain ⟨t, ht, he⟩ := loadRegs_effect (s := s) x
    exact ⟨t, (execLdVxMem_eq x s).trans ht, he⟩
  | unknown op => exact ⟨_, rfl, .unknown op⟩

/-- What an instruction answers is a state that `Effect` allows. -/
theorem effect_of_exec {i : Instr} {s t : State} (h : exec i s = .next t) : Effect s i t := by
  obtain ⟨u, hu, he⟩ := exec_effect i s
  cases hu.symm.trans h
  exact he

/-! ### The access matrix, column by column (10_state.md R33) -/

namespace Effect

variable {s t : State} {i : Instr}

theorem v_eq (h : Effect s i t) (z : Reg) (hz : writesReg i z = false) : t.v[z.val] = s.v[z.val] := by
  cases h with
  | regs v hv => exact hv z hz
  | addIVx x => exact (s.readV_writeV_ne _ (ne_of_beq_false hz).symm :)
  | drw x y n v d hv => exact hv z (ne_of_beq_false hz)
  | _ => rfl

theorem index_eq (h : Effect s i t) (hI : ∀ nnn, i ≠ .ldI nnn) (hA : ∀ x, i ≠ .addIVx x)
    (hF : ∀ x, i ≠ .ldFVx x) : t.index = s.index := by
  cases h with
  | ldI nnn => exact absurd rfl (hI nnn)
  | addIVx x => exact absurd rfl (hA x)
  | ldFVx x => exact absurd rfl (hF x)
  | _ => rfl

theorem mem_eq (h : Effect s i t) (hB : ∀ x, i ≠ .ldBVx x) (hM : ∀ x, i ≠ .ldMemVx x) : t.mem = s.mem := by
  cases h with
  | store hi =>
    rcases hi with ⟨x, rfl⟩ | ⟨x, rfl⟩
    · exact absurd rfl (hB x)
    · exact absurd rfl (hM x)
  | _ => rfl

theorem stack_eq (h : Effect s i t) (hC : ∀ nnn, i ≠ .call nnn) : t.stack = s.stack := by
  cases h with
  | call nnn => exact absurd rfl (hC nnn)
  | _ => rfl

theorem sp_eq (h : Effect s i t) (hC : ∀ nnn, i ≠ .call nnn) (hR : i ≠ .ret) : t.sp = s.sp := by
  cases h with
  | call nnn => exact absurd rfl (hC nnn)
  | ret => exact absurd rfl hR
  | _ => rfl

theorem dt_eq (h : Effect s i t) (hD : ∀ x, i ≠ .ldDtVx x) : t.dt = s.dt := by
  cases h with
  | ldDtVx x => exact absurd rfl (hD x)
  | _ => rfl

theorem st_eq (h : Effect s i t) (hS : ∀ x, i ≠ .ldStVx x) : t.st = s.st := by
  cases h with
  | ldStVx x => exact absurd rfl (hS x)
  | _ => rfl

theorem mode_waitReg_eq (h : Effect s i t) (hK : ∀ x, i ≠ .ldVxK x) : t.mode = s.mode ∧ t.waitReg = s.waitReg := by
  cases h with
  | ldVxK x => exact absurd rfl (hK x)
  | _ => exact ⟨rfl, rfl⟩

theorem disp_dirty_eq (h : Effect s i t) (hC : i ≠ .cls) (hD : ∀ x y n, i ≠ .drw x y n) :
    t.disp = s.disp ∧ t.dirty = s.dirty := by
  cases h with
  | cls => exact absurd rfl hC
  | drw x y n => exact absurd rfl (hD x y n)
  | _ => exact ⟨rfl, rfl⟩

theorem unknownOpcode_eq (h : Effect s i t) (hU : ∀ op, i ≠ .unknown op) : t.unknownOpcode = s.unknownOpcode := by
  cases h with
  | unknown op => exact absurd rfl (hU op)
  | _ => rfl

theorem inputs_eq (h : Effect s i t) :
    t.keys = s.keys ∧ t.rand = s.rand ∧ t.loadable = s.loadable ∧ t.hostTick = s.hostTick := by
  cases h <;> exact ⟨rfl, rfl, rfl, rfl⟩

end Effect

/-- Settles O19: each column of the access matrix holds of every effect. -/
theorem onlyTheAccessMatrixWrites : Obligations.OnlyTheAccessMatrixWrites := by
  intro i s t h
  have he := effect_of_exec h
  exact ⟨he.v_eq, he.index_eq, he.mem_eq, fun hC => ⟨he.stack_eq hC, he.sp_eq hC⟩, he.dt_eq, he.st_eq,
    he.mode_waitReg_eq, he.disp_dirty_eq, he.unknownOpcode_eq, he.inputs_eq⟩

/-! ### The machine invariant -/

/-- A state in which a tick executes an instruction: the tick has begun and the fetch has succeeded
(40_tick_cycle.md R90 to R93). -/
structure State.Executing (s : State) : Prop where
  safe : s.safe
  running : s.mode = .running
  pcLe : s.pc.toNat ≤ 0xFFE
  quiet : s.dirty = false ∧ s.unknownOpcode = none ∧ s.loadable = false

/-- The address of a following instruction is not wrapped (40_tick_cycle.md R95). -/
theorem toNat_pc_add {pc : Word} (h : pc.toNat ≤ 0xFFE) {n : Word} (hn : n.toNat ≤ 4) :
    (pc + n).toNat = pc.toNat + n.toNat := by
  rw [BitVec.toNat_add]
  omega

/-- The next instruction's address. -/
theorem toNat_pc_add_two {pc : Word} (h : pc.toNat ≤ 0xFFE) : (pc + 2).toNat ≤ 0x1000 := by
  have h2 : (2 : Word).toNat = 2 := rfl
  rw [toNat_pc_add h (by omega)]
  omega

/-- The address a conditional skip ends at. -/
theorem toNat_pc_add_skip {pc : Word} (h : pc.toNat ≤ 0xFFE) (c : Bool) :
    (pc + if c then 4 else 2).toNat ≤ 0x1002 := by
  have hc : (if c then 4 else 2 : Word).toNat ≤ 4 := by cases c <;> decide
  rw [toNat_pc_add h hc]
  omega

/-- The highest target of JP V0 (41_control_flow.md R118). -/
theorem toNat_addrWord_add_byteWord_le (nnn : BitVec 12) (b : Byte) :
    (addrWord nnn + byteWord b).toNat ≤ 0x10FE := by
  have hn := nnn.isLt
  have hb := b.isLt
  rw [BitVec.toNat_add, addrWord_toNat, byteWord_toNat]
  omega

/-- A 12-bit address is within the bound of PC. -/
theorem toNat_addrWord_le (nnn : BitVec 12) : (addrWord nnn).toNat ≤ 0x10FE := by
  have hn := nnn.isLt
  rw [addrWord_toNat]
  omega

namespace Effect

variable {s t : State} {i : Instr}

theorem memWf (h : Effect s i t) (hm : Memory.wf s.mem = true) : Memory.wf t.mem = true := by
  cases h with
  | store hi bs hfit => exact Memory.wf_writeRun hm (Memory.writeRun_eq.trans (if_pos hfit))
  | _ => exact hm

/-- Every target an instruction gives PC is within the bound of R24. -/
theorem pc_le (h : Effect s i t) (hpc : s.pc.toNat ≤ 0xFFE) (hs : ∀ k : Fin 16, s.stack[k.val].toNat ≤ 0x1000) :
    t.pc.toNat ≤ 0x10FE := by
  have hnext : (s.pc + 2).toNat ≤ 0x10FE := (toNat_pc_add_two hpc).trans (by decide)
  have hstay : s.pc.toNat ≤ 0x10FE := hpc.trans (by decide)
  cases h with
  | fault f => exact hstay
  | ldVxK x => exact hstay
  | skip c => exact (toNat_pc_add_skip hpc c).trans (by decide)
  | jp nnn => exact toNat_addrWord_le nnn
  | call nnn => exact toNat_addrWord_le nnn
  | jpV0 nnn => exact toNat_addrWord_add_byteWord_le nnn _
  | ret h => exact (hs ⟨s.sp.val - 1, by omega⟩).trans (by decide)
  | _ => exact hnext

/-- The one new stack slot is CALL's, the address after it. -/
theorem stack_le (h : Effect s i t) (hpc : s.pc.toNat ≤ 0xFFE) (hs : ∀ k : Fin 16, s.stack[k.val].toNat ≤ 0x1000)
    (k : Fin 16) : t.stack[k.val].toNat ≤ 0x1000 := by
  cases h with
  | call nnn h =>
    rw [Vector.getElem_set]
    split
    · exact toNat_pc_add_two hpc
    · exact hs k
  | _ => exact hs k

/-- The machine waits after LD Vx, K only, with PC held on it (D9). -/
theorem pc_eq_of_waiting (h : Effect s i t) (hr : s.mode = .running) (hw : t.mode = .waitingForKey) :
    t.pc = s.pc := by
  have hm : s.mode ≠ .waitingForKey := by simp [hr]
  cases h with
  | ldVxK x => rfl
  | _ => exact absurd hw hm

/-- An instruction that ends faulted has written the fault register and nothing else (60_exceptions.md R205). -/
theorem eq_of_not_safe (h : Effect s i t) (hs : s.safe) (ht : ¬ t.safe) : t = { s with fault := t.fault } := by
  cases h with
  | fault f => rfl
  | _ => exact absurd hs ht

/-- An instruction executed in a tick keeps the invariant. -/
theorem inv (h : Effect s i t) (hi : s.Inv) (hx : s.Executing) : t.Inv where
  memWf := h.memWf hi.memWf
  pcBound := h.pc_le hx.pcLe hi.stackBound
  stackBound := h.stack_le hx.pcLe hi.stackBound
  waitingPc hw := by
    rw [h.pc_eq_of_waiting hx.running hw]
    exact hx.pcLe
  faulted ht := by
    rw [h.eq_of_not_safe hx.safe ht]
    exact ⟨hx.running, hx.quiet⟩

end Effect

section
variable {s : State}

/-- The tick's start keeps the invariant of a machine that has not faulted. -/
theorem State.Inv.begin (hi : s.Inv) (hs : s.safe) (inp : TickInput) : (s.begin inp).Inv where
  memWf := hi.memWf
  pcBound := hi.pcBound
  stackBound := hi.stackBound
  waitingPc := hi.waitingPc
  faulted hf := absurd hs hf

/-- The state in which a running machine's tick executes. -/
theorem State.executing_begin (hs : s.safe) (hr : s.mode = .running) (hpc : s.pc.toNat ≤ 0xFFE) (inp : TickInput) :
    (s.begin inp).Executing :=
  ⟨hs, hr, hpc, rfl, rfl, rfl⟩

/-- A fault raised by a fetch keeps the invariant. -/
theorem State.Inv.raise_begin (hi : s.Inv) (hr : s.mode = .running) (inp : TickInput) (k : FaultKind) (n : Nat) :
    ((s.begin inp).raise k n).Inv where
  memWf := hi.memWf
  pcBound := hi.pcBound
  stackBound := hi.stackBound
  waitingPc := hi.waitingPc
  faulted _ := ⟨hr, rfl, rfl, rfl⟩

/-- The wait machine keeps the invariant: a key ends the wait with PC on the next instruction, no key changes
nothing. -/
theorem State.Inv.waitMachine (hi : s.Inv) (hs : s.safe) (hw : s.mode = .waitingForKey) : s.waitMachine.Inv := by
  rw [State.waitMachine_eq]
  split
  · exact {
      memWf := hi.memWf
      pcBound := (toNat_pc_add_two (hi.waitingPc hw)).trans (by decide)
      stackBound := hi.stackBound
      waitingPc := nofun
      faulted := fun hf => absurd hs hf }
  · exact hi

/-- Every tick keeps the invariant. -/
theorem State.Inv.tick (hi : s.Inv) {inp : TickInput} {t : State} (h : tick inp s = .next t) : t.Inv := by
  rcases tick_cases h with ⟨-, rfl⟩ | ⟨hs, hw, rfl⟩ | ⟨-, hr, -, rfl⟩ | ⟨hs, hr, hpc, op, -, hx⟩
  · exact hi
  · exact (hi.begin hs inp).waitMachine hs hw
  · exact hi.raise_begin hr inp _ _
  · exact (effect_of_exec hx).inv (hi.begin hs inp) (State.executing_begin hs hr hpc inp)

end

/-- Settles O8: a step is a tick with the host's inputs. -/
theorem everyStepKeepsTheMachineInvariant : Obligations.EveryStepKeepsTheMachineInvariant :=
  fun _ hi => ⟨fun _ _ h => hi.tick h, fun _ h => hi.tick h⟩

/-! ### The state after reset (10_state.md R34) -/

/-- Above the font an unlisted address reads as 0x00 (10_state.md R36). -/
theorem unlisted_of_ge {a : Nat} (h : 80 ≤ a) : unlisted a = 0 :=
  List.getD_eq_default _ _ h

/-- The font at 0x000 to 0x04F (10_state.md R36, R37). -/
theorem read_reset_font : (List.range 80).map (Memory.read State.reset.mem) = fontBytes.map some := by
  decide

theorem read_reset_above_font {a : Nat} (h : 0x50 ≤ a) (ha : a ≤ 0xFFF) :
    Memory.read State.reset.mem a = some 0 := by
  rw [Memory.read_of_lt (show a < 4096 by omega)]
  exact congrArg some (unlisted_of_ge h)

/-- Settles O6: the memory clauses by what unlisted addresses read as, the others by the reset record. -/
theorem resetLeavesTheStateOfRuleR34 : Obligations.ResetLeavesTheStateOfRuleR34 := by
  refine ⟨rfl, rfl, read_reset_font, fun _ => read_reset_above_font, fun a h => Memory.read_eq_none.mpr h,
    fun x => ?_, rfl, rfl, fun k => ?_, rfl, rfl, fun k => ?_, rfl, Display.pixel_blank, rfl, rfl⟩
  · exact Vector.getElem_replicate x.isLt
  · exact Vector.getElem_replicate k.isLt
  · exact Vector.getElem_replicate k.isLt

/-- Settles O7: the machine runs unfaulted at 0x200 with every stack slot zero. -/
theorem resetMeetsTheMachineInvariant : Obligations.ResetMeetsTheMachineInvariant where
  memWf := Memory.wf_reset
  pcBound := by decide
  stackBound k := by
    rw [State.reset, Vector.getElem_replicate]
    decide
  waitingPc := nofun
  faulted h := absurd rfl h

end Sys2Proof.Machine
end

section
/-! PROOFS. 20_memory.md and 40_tick_cycle.md. A running tick executes the instruction of the word at PC; a store is
what every later fetch reads, with nothing in between. -/

namespace Sys2Proof.Machine

/-! ### A running tick executes the word at PC (40_tick_cycle.md R93, R94) -/

/-- Two bytes that exist are the word fetched there, the lower address's high (20_memory.md R52). -/
theorem Memory.fetch16_of_read {m : Memory} {a : Nat} {hi lo : Byte} (hh : Memory.read m a = some hi)
    (hl : Memory.read m (a + 1) = some lo) : Memory.fetch16 m a = some (wordOfBytes hi lo) := by
  rw [Memory.fetch16, hh, hl]

/-- A tick of a running machine whose fetch finds a word. -/
theorem tick_of_fetch {s : State} {op : Word} (hs : s.safe) (hr : s.mode = .running)
    (hop : Memory.fetch16 s.mem s.pc.toNat = some op) (inp : TickInput) :
    tick inp s = exec (decode op) (s.begin inp) := by
  rw [tick_of_running hs hr, State.fetchExec_eq, State.begin_mem, State.begin_pc, hop]

/-- Settles O10: the two bytes are the fetched word; the state written out by field is `State.begin`, and `step` is
`tick` with the host's inputs. -/
theorem stepRunsTheDecodedInstruction : Obligations.StepRunsTheDecodedInstruction := by
  intro inp s i hi lo hs hr hh hl hd
  have hdec : decode (wordOfBytes hi lo) = i := by
    cases hd
    rfl
  refine ⟨?_, rfl⟩
  rw [tick_of_fetch hs hr (Memory.fetch16_of_read hh hl) inp, hdec]
  rfl

/-! ### A fetch after a store (20_memory.md R62) -/

/-- The fetch at any address up to 0xFFE finds the bytes as a run of writes left them. -/
theorem Memory.fetch16_putRun {m : Memory} {a : Nat} {bs : List Byte} (hm : Memory.wf m = true)
    (ha : a + bs.length ≤ Config.memSize) {c : Nat} (hc : c ≤ 0xFFE) :
    Memory.fetch16 (Memory.putRun m a bs) c = some (byteAfter m a bs c ++ byteAfter m a bs (c + 1)) := by
  rw [Memory.fetch16_of_le hc, Memory.byteAt_putRun ha hm, Memory.byteAt_putRun ha hm]
  rfl

/-- A store at I whose bytes lie inside memory changes memory and PC alone, every fetch sees it, and every tick of an
unfaulted running machine on that memory executes the word found there. -/
theorem State.storeAtIndex_seen {s : State} {bs : List Byte} (hm : Memory.wf s.mem = true)
    (ha : s.index.toNat + bs.length ≤ Config.memSize) :
    ∃ t, s.storeAtIndex bs = .next t ∧ t = { s with mem := t.mem, pc := s.pc + 2 } ∧
      ∀ c, c ≤ 0xFFE →
        let word : Word := byteAfter s.mem s.index.toNat bs c ++ byteAfter s.mem s.index.toNat bs (c + 1)
        Memory.fetch16 t.mem c = some word ∧
        ∀ (inp : TickInput) (u : State), u.mem = t.mem → u.pc.toNat = c → u.safe → u.mode = .running →
          tick inp u = exec (decode word) (u.begin inp) := by
  refine ⟨_, (s.storeAtIndex_eq bs).trans (if_pos (.inr ha)), rfl, fun c hc => ?_⟩
  have hf := Memory.fetch16_putRun hm ha hc
  refine ⟨hf, fun inp u hmem hpc hs hr => tick_of_fetch hs hr ?_ inp⟩
  rw [hmem, hpc, hf]

/-- Settles O43: both instructions are a store at I, of x + 1 and of three bytes. -/
theorem storesAreSeenByTheNextFetch : Obligations.StoresAreSeenByTheNextFetch := by
  intro x s hm
  have hsize : Config.memSize = 4096 := rfl
  refine ⟨fun ha => State.storeAtIndex_seen (bs := s.regsTo x) hm ?_,
    fun ha => State.storeAtIndex_seen (bs := bcdDigits (s.readV x)) hm ?_⟩
  · rw [State.length_regsTo]
    omega
  · rw [length_bcdDigits]
    omega

end Sys2Proof.Machine
end

section
/-! PROOFS. 30_encoding.md, and the totality of 40_tick_cycle.md. The encoder undoes the decoder on every word, the
decoder undoes the encoder on every well-formed term, and a word that fits a row of the opcode map is the word of
that row's instruction. -/

namespace Sys2Proof

/-! ### A word is its fixed bits and its operand fields (30_encoding.md R71, R72) -/

section
variable {op : Word} {c n : BitVec 4} {kk : Byte}

theorem wordA_of_fieldC (hc : fieldC op = c) : wordA c (fieldNnn op) = op := by
  subst hc
  exact wordA_fields op

theorem wordXK_of_fields (hc : fieldC op = c) (hk : fieldKk op = kk) : wordXK c (fieldX op) kk = op := by
  subst hc hk
  exact wordXK_fields op

theorem wordXYN_of_fields (hc : fieldC op = c) (hn : fieldN op = n) :
    wordXYN c (fieldX op) (fieldY op) n = op := by
  subst hc hn
  exact wordXYN_fields op

end

/-! ### The encoder undoes the decoder -/

theorem encode_decodeClass0 (op : Word) : encode (decodeClass0 op) = op := by
  unfold decodeClass0
  split
  · next h => exact h.symm
  · split
    · next h => exact h.symm
    · rfl

theorem encode_decodeClass5 {op : Word} (hc : fieldC op = 0x5#4) : encode (decodeClass5 op) = op := by
  unfold decodeClass5
  split
  · next hn => exact wordXYN_of_fields hc hn
  · rfl

theorem encode_decodeClass8 {op : Word} (hc : fieldC op = 0x8#4) : encode (decodeClass8 op) = op := by
  unfold decodeClass8
  split
  case h_10 => rfl
  all_goals
    next hn => exact wordXYN_of_fields hc hn

theorem encode_decodeClass9 {op : Word} (hc : fieldC op = 0x9#4) : encode (decodeClass9 op) = op := by
  unfold decodeClass9
  split
  · next hn => exact wordXYN_of_fields hc hn
  · rfl

theorem encode_decodeClassE {op : Word} (hc : fieldC op = 0xE#4) : encode (decodeClassE op) = op := by
  unfold decodeClassE
  split
  case h_3 => rfl
  all_goals
    next hk => exact wordXK_of_fields hc hk

theorem encode_decodeClassF {op : Word} (hc : fieldC op = 0xF#4) : encode (decodeClassF op) = op := by
  unfold decodeClassF
  split
  case h_10 => rfl
  all_goals
    next hk => exact wordXK_of_fields hc hk

/-- R74: no bit of a word is lost. -/
theorem encode_decode (op : Word) : encode (decode op) = op := by
  unfold decode
  split
  · exact encode_decodeClass0 op
  · next hc => exact wordA_of_fieldC hc
  · next hc => exact wordA_of_fieldC hc
  · next hc => exact wordXK_of_fields hc rfl
  · next hc => exact wordXK_of_fields hc rfl
  · next hc => exact encode_decodeClass5 hc
  · next hc => exact wordXK_of_fields hc rfl
  · next hc => exact wordXK_of_fields hc rfl
  · next hc => exact encode_decodeClass8 hc
  · next hc => exact encode_decodeClass9 hc
  · next hc => exact wordA_of_fieldC hc
  · next hc => exact wordA_of_fieldC hc
  · next hc => exact wordXK_of_fields hc rfl
  · next hc => exact wordXYN_of_fields hc rfl
  · next hc => exact encode_decodeClassE hc
  · have hc : fieldC op = 0xF#4 := by
      simp only [imp_false] at *
      bv_omega
    exact encode_decodeClassF hc

/-! ### The decoder undoes the encoder -/

theorem row_selects_encode (i : Instr) : i.row.selects (encode i) = true := by
  refine Laws.FixedBits.of_eq ?_
  cases i with
  | cls | ret => rfl
  | jp | call | seImm | sneImm | ldImm | addImm | ldI | jpV0 | rnd | drw => exact wordA_and_mask _ _
  | seReg | ldReg | orReg | andReg | xorReg | addReg | sub | shr | subn | shl | sneReg =>
    exact wordXYN_and_maskXY _ _ _ _
  | skp | sknp | ldVxDt | ldVxK | ldDtVx | ldStVx | addIVx | ldFVx | ldBVx | ldMemVx | ldVxMem =>
    exact wordXK_and_maskX _ _ _
  | unknown => exact BitVec.and_zero

theorem row_mem_opcodeMap {i : Instr} (h : ∀ w, i ≠ .unknown w) : i.row ∈ opcodeMap := by
  cases i with
  | unknown w => exact absurd rfl (h w)
  | _ =>
    rw [Instr.row]
    decide

theorem selects_eq_false_of_isUnknownWord {op : Word} (h : isUnknownWord op = true) {r : OpcodeRow}
    (hr : r ∈ opcodeMap) : r.selects op = false := by
  simpa using List.all_eq_true.mp h r hr

/-- The unknown opcode a word decodes to carries that word. -/
theorem eq_of_decode_eq_unknown {op w : Word} (hd : decode op = .unknown w) : w = op :=
  (congrArg encode hd).symm.trans (encode_decode op)

/-- A word that fits no row decodes to the unknown opcode: any other instruction has its row in the map, and the word
of the instruction, `op`, fits that row. -/
theorem decode_of_isUnknownWord {op : Word} (h : isUnknownWord op = true) : decode op = .unknown op := by
  by_contra hne
  have hmem : (decode op).row ∈ opcodeMap :=
    row_mem_opcodeMap fun w hw => hne (eq_of_decode_eq_unknown hw ▸ hw)
  have hsel := row_selects_encode (decode op)
  rw [encode_decode, selects_eq_false_of_isUnknownWord h hmem] at hsel
  exact Bool.false_ne_true hsel

/-- The decoder's last arm names no nibble; class F is what is left for it. -/
theorem decode_of_fieldC_eq_F {op : Word} (hc : fieldC op = 0xF#4) : decode op = decodeClassF op := by
  rw [decode, hc]
  rfl

/-- Settles O1: format by format, the fields of the word are the operands. -/
theorem instructionWordsRoundTrip : Obligations.InstructionWordsRoundTrip := by
  intro i hi
  cases i with
  | cls | ret => rfl
  | jp | call | ldI | jpV0 => simp only [encode, decode, fieldC_wordA, fieldNnn_wordA]
  | seImm | sneImm | ldImm | addImm | rnd =>
    simp only [encode, decode, fieldC_wordXK, fieldX_wordXK, fieldKk_wordXK]
  | drw => simp only [encode, decode, fieldC_wordXYN, fieldX_wordXYN, fieldY_wordXYN, fieldN_wordXYN]
  | seReg | sneReg =>
    simp only [encode, decode, decodeClass5, decodeClass9, fieldC_wordXYN, fieldX_wordXYN, fieldY_wordXYN,
      fieldN_wordXYN, if_true]
  | ldReg | orReg | andReg | xorReg | addReg | sub | shr | subn | shl =>
    simp only [encode, decode, decodeClass8, fieldC_wordXYN, fieldX_wordXYN, fieldY_wordXYN, fieldN_wordXYN]
  | skp | sknp => simp only [encode, decode, decodeClassE, fieldC_wordXK, fieldX_wordXK, fieldKk_wordXK]
  | ldVxDt | ldVxK | ldDtVx | ldStVx | addIVx | ldFVx | ldBVx | ldMemVx | ldVxMem =>
    simp only [encode, decode_of_fieldC_eq_F (fieldC_wordXK _ _ _), decodeClassF, fieldX_wordXK, fieldKk_wordXK]
  | unknown op => exact decode_of_isUnknownWord hi

/-! ### The opcode map, row by row (30_encoding.md R75)

One lemma per mask and format: a word with the fixed bits of the row is the word of the row's instruction with the
word's own operand fields, so the decoder gives that instruction. -/

section
variable {op : Word} {i : Instr}

theorem decode_of_encode_eq (h : encode i = op) (hi : i.wellFormed = true) : decode op = i := by
  subst h
  exact instructionWordsRoundTrip i hi

theorem decode_of_rowE (w : Word) (hi : i.wellFormed = true) (henc : encode i = w) (h : op &&& 0xFFFF#16 = w) :
    decode op = i :=
  decode_of_encode_eq (henc.trans (h.symm.trans (and_maskE op))) hi

theorem decode_of_rowA (c : BitVec 4) (hi : i.wellFormed = true) (henc : encode i = wordA c (fieldNnn op))
    (h : op &&& 0xF000#16 = wordA c 0) : decode op = i :=
  decode_of_encode_eq (henc.trans (wordA_of_fieldC ((selectsA_iff op c).mp h))) hi

theorem decode_of_rowXK (c : BitVec 4) (hi : i.wellFormed = true)
    (henc : encode i = wordXK c (fieldX op) (fieldKk op)) (h : op &&& 0xF000#16 = wordA c 0) : decode op = i :=
  decode_of_encode_eq (henc.trans (wordXK_of_fields ((selectsA_iff op c).mp h) rfl)) hi

theorem decode_of_rowXYN (c : BitVec 4) (hi : i.wellFormed = true)
    (henc : encode i = wordXYN c (fieldX op) (fieldY op) (fieldN op)) (h : op &&& 0xF000#16 = wordA c 0) :
    decode op = i :=
  decode_of_encode_eq (henc.trans (wordXYN_of_fields ((selectsA_iff op c).mp h) rfl)) hi

theorem decode_of_rowXY (c n : BitVec 4) (hi : i.wellFormed = true)
    (henc : encode i = wordXYN c (fieldX op) (fieldY op) n) (h : op &&& 0xF00F#16 = wordXYN c 0 0 n) :
    decode op = i := by
  obtain ⟨hc, hn⟩ := (selectsXY_iff op c n).mp h
  exact decode_of_encode_eq (henc.trans (wordXYN_of_fields hc hn)) hi

theorem decode_of_rowX (c : BitVec 4) (kk : Byte) (hi : i.wellFormed = true)
    (henc : encode i = wordXK c (fieldX op) kk) (h : op &&& 0xF0FF#16 = wordXK c 0 kk) : decode op = i := by
  obtain ⟨hc, hk⟩ := (selectsX_iff op c kk).mp h
  exact decode_of_encode_eq (henc.trans (wordXK_of_fields hc hk)) hi

end

/-- Settles O3: each row by the lemma of its mask and format, in the table's order; then the unknown words. -/
theorem decodeFollowsTheOpcodeMap : Obligations.DecodeFollowsTheOpcodeMap := by
  intro op
  exact ⟨decode_of_rowE 0x00E0 rfl rfl, decode_of_rowE 0x00EE rfl rfl,
    decode_of_rowA 0x1 rfl rfl, decode_of_rowA 0x2 rfl rfl,
    decode_of_rowXK 0x3 rfl rfl, decode_of_rowXK 0x4 rfl rfl,
    decode_of_rowXY 0x5 0x0 rfl rfl,
    decode_of_rowXK 0x6 rfl rfl, decode_of_rowXK 0x7 rfl rfl,
    decode_of_rowXY 0x8 0x0 rfl rfl, decode_of_rowXY 0x8 0x1 rfl rfl, decode_of_rowXY 0x8 0x2 rfl rfl,
    decode_of_rowXY 0x8 0x3 rfl rfl, decode_of_rowXY 0x8 0x4 rfl rfl, decode_of_rowXY 0x8 0x5 rfl rfl,
    decode_of_rowXY 0x8 0x6 rfl rfl, decode_of_rowXY 0x8 0x7 rfl rfl, decode_of_rowXY 0x8 0xE rfl rfl,
    decode_of_rowXY 0x9 0x0 rfl rfl,
    decode_of_rowA 0xA rfl rfl, decode_of_rowA 0xB rfl rfl,
    decode_of_rowXK 0xC rfl rfl,
    decode_of_rowXYN 0xD rfl rfl,
    decode_of_rowX 0xE 0x9E rfl rfl, decode_of_rowX 0xE 0xA1 rfl rfl,
    decode_of_rowX 0xF 0x07 rfl rfl, decode_of_rowX 0xF 0x0A rfl rfl, decode_of_rowX 0xF 0x15 rfl rfl,
    decode_of_rowX 0xF 0x18 rfl rfl, decode_of_rowX 0xF 0x1E rfl rfl, decode_of_rowX 0xF 0x29 rfl rfl,
    decode_of_rowX 0xF 0x33 rfl rfl, decode_of_rowX 0xF 0x55 rfl rfl, decode_of_rowX 0xF 0x65 rfl rfl,
    decode_of_isUnknownWord⟩

/-! ### Every word has one meaning (30_encoding.md R74) -/

/-- A word that decodes to the unknown opcode fits no row: a row it fitted would give it that row's instruction. -/
theorem isUnknownWord_of_decode {op : Word} (hd : decode op = .unknown op) : isUnknownWord op = true := by
  have hrows := decodeFollowsTheOpcodeMap op
  simpa [hd, isUnknownWord, opcodeMap, opcodeMapLow, opcodeMapMid, opcodeMapHigh, OpcodeRow.selects] using hrows

/-- Settles O2: only an unknown opcode could be ill-formed, and one that a word decodes to is not. -/
theorem everyWordIsTheWordOfItsInstruction : Obligations.EveryWordIsTheWordOfItsInstruction := by
  intro op
  refine ⟨?_, encode_decode op⟩
  cases hd : decode op with
  | unknown w =>
    obtain rfl := eq_of_decode_eq_unknown hd
    exact isUnknownWord_of_decode hd
  | _ => rfl

/-- Settles O4: two rows that one word fits agree on the bits both masks fix, and no two rows of the map do. -/
theorem opcodePatternsAreDisjoint : Obligations.OpcodePatternsAreDisjoint := by
  have hfix : opcodeMap.Pairwise fun r q => r.pattern &&& q.mask ≠ q.pattern &&& r.mask := by decide
  refine ⟨rfl, hfix.imp fun {r q} hne op ⟨hr, hq⟩ => hne ?_⟩
  rw [← hr, ← hq, BitVec.and_assoc, BitVec.and_comm r.mask, ← BitVec.and_assoc]

/-- Settles O5: each clause is an evaluation of the decoder on fixed bytes. -/
theorem exampleWordsDecode : Obligations.ExampleWordsDecode :=
  ⟨rfl, rfl, rfl, rfl, rfl, rfl, rfl, rfl, rfl, rfl, rfl, rfl, rfl⟩

end Sys2Proof

namespace Sys2Proof.Machine

/-! ### Every tick answers a next state (40_tick_cycle.md R90, R99) -/

theorem exec_total (i : Instr) (s : State) : ∃ t, exec i s = .next t := by
  obtain ⟨t, ht, -⟩ := exec_effect i s
  exact ⟨t, ht⟩

theorem fetchExec_total (s : State) : ∃ t, s.fetchExec = .next t := by
  unfold State.fetchExec
  split
  · exact exec_total _ s
  · exact ⟨_, rfl⟩

theorem tick_total (inp : TickInput) (s : State) : ∃ t, tick inp s = .next t := by
  cases hf : s.fault with
  | some f => exact ⟨s, tick_of_faulted hf inp⟩
  | none =>
    cases hm : s.mode with
    | waitingForKey => exact ⟨_, tick_of_waiting hf hm inp⟩
    | running =>
      rw [tick_of_running hf hm]
      exact fetchExec_total _

/-- Settles O11: a step is a tick with the host's inputs. -/
theorem everyTickAnswersANextState : Obligations.EveryTickAnswersANextState :=
  ⟨exec_total, tick_total, fun s => tick_total s.hostInput s⟩

end Sys2Proof.Machine
end

section
/-! PROOFS. 40_tick_cycle.md. Where a tick leaves PC, what its output record shows, that the random byte reaches RND
alone, and the ticks that execute no instruction. -/

namespace Sys2Proof.Machine

/-! ### Ticks that execute nothing, and the unknown opcode (R93, R96, R99) -/

/-- Settles O12: a fetch finds no word exactly above 0xFFE. -/
theorem fetchAboveMemoryFaults : Obligations.FetchAboveMemoryFaults := by
  intro inp s hs hr hpc
  rw [tick_of_running hs hr, State.fetchExec_eq, State.begin_mem, State.begin_pc,
    Memory.fetch16_eq_none.mpr hpc, firstBad_eq]
  rfl

/-- Settles O13: a step is a tick with the host's inputs, and the outputs are those of a faulted machine. -/
theorem faultedMachineIsFrozen : Obligations.FaultedMachineIsFrozen := by
  intro inp s hs
  obtain ⟨f, hf⟩ := Option.ne_none_iff_exists'.mp hs
  refine ⟨tick_of_faulted hf inp, tick_of_faulted hf s.hostInput, ?_⟩
  rw [tickPort, tick_of_faulted hf, hf, ← soundActive_eq]
  simp only [Option.isSome_some, if_true, State.faultedOutputs, hf]

/-- Settles O14: the meaning is this record update, its two fields written one after the other. -/
theorem unknownOpcodeIsANoOp : Obligations.UnknownOpcodeIsANoOp :=
  fun _ _ => rfl

/-! ### PC follows the directive of the instruction (R95, R100) -/

/-- A list lookup with a default, inside the vector's bounds. -/
theorem getD_toList_of_lt {α : Type} {n k : Nat} (v : Vector α n) (h : k < n) (d : α) :
    v.toList.getD k d = v[k] := by
  simp [List.getD, h]

section
variable {s t : State}

/-- The two ends of a conditional skip, by the condition that selects them. -/
theorem toNat_skipIf_pc (hpc : s.pc.toNat ≤ 0xFFE) {c : Bool} {p : Prop} [Decidable p] (hc : c = true ↔ p) :
    (s.skipIf c).pc.toNat = s.pc.toNat + if p then 4 else 2 := by
  rw [← if_congr hc rfl rfl]
  cases c
  · exact toNat_pc_add hpc (n := 2) (by decide)
  · exact toNat_pc_add hpc (n := 4) (by decide)

/-- The same with the ends in the other order, for the skips on a condition that fails. -/
theorem toNat_skipIf_pc_not (hpc : s.pc.toNat ≤ 0xFFE) {c : Bool} {p : Prop} [Decidable p] (hc : c = true ↔ ¬p) :
    (s.skipIf c).pc.toNat = s.pc.toNat + if p then 2 else 4 := by
  rw [toNat_skipIf_pc hpc hc, ite_not]

/-- The target of JP V0 does not wrap (41_control_flow.md R118). -/
theorem toNat_addrWord_add_byteWord (nnn : BitVec 12) (b : Byte) :
    (addrWord nnn + byteWord b).toNat = nnn.toNat + b.toNat := by
  have hn := nnn.isLt
  have hb := b.isLt
  rw [BitVec.toNat_add, addrWord_toNat, byteWord_toNat]
  omega

/-- A fault is no answer that is safe. -/
theorem next_raise_ne (ht : t.safe) (k : FaultKind) (n : Nat) : (.next (s.raise k n) : Result) ≠ .next t := by
  intro h
  cases h
  cases ht

/-- An instruction that writes or raises, and has not raised, has written. -/
theorem eq_of_ite_raise {p : Prop} [Decidable p] {u : State} {k : FaultKind} {n : Nat}
    (h : (if p then .next u else .next (s.raise k n) : Result) = .next t) (ht : t.safe) : t = u := by
  split at h
  · cases h
    rfl
  · exact absurd h (next_raise_ne ht k n)

theorem pc_of_execCall {nnn : BitVec 12} (h : execCall nnn s = .next t) (ht : t.safe) : t.pc = addrWord nnn := by
  by_cases hsp : s.sp.val < 16
  · cases (execCall_of_lt hsp nnn).symm.trans h
    rfl
  · exact absurd ((execCall_of_full hsp nnn).symm.trans h) (next_raise_ne ht _ _)

theorem pc_of_execRet (h : execRet s = .next t) (ht : t.safe) : t.pc = s.stack.toList.getD (s.sp.val - 1) 0 := by
  by_cases hsp : 0 < s.sp.val
  · cases (execRet_of_pos hsp).symm.trans h
    exact (getD_toList_of_lt s.stack (by omega) 0).symm
  · exact absurd ((execRet_of_empty hsp).symm.trans h) (next_raise_ne ht _ _)

theorem pc_of_execDrw {x y : Reg} {n : BitVec 4} (h : execDrw x y n s = .next t) (ht : t.safe) :
    t.pc = s.pc + 2 := by
  rw [eq_of_ite_raise ((execDrw_eq x y n s).symm.trans h) ht, State.flow_next_pc, State.markDirty_pc, drawRows_frame,
    State.writeV_pc]

theorem pc_of_storeAtIndex {bs : List Byte} (h : s.storeAtIndex bs = .next t) (ht : t.safe) : t.pc = s.pc + 2 := by
  rw [eq_of_ite_raise ((s.storeAtIndex_eq bs).symm.trans h) ht]

theorem pc_of_loadRegs {x : Reg} (h : s.loadRegs x = .next t) (ht : t.safe) : t.pc = s.pc + 2 := by
  rw [eq_of_ite_raise ((s.loadRegs_eq x).symm.trans h) ht]

/-- A key test that has not raised has skipped on the flag of the key it names. -/
theorem eq_skipIf_of_execSkp {x : Reg} (ht : t.safe) :
    (execSkp x s = .next t → t = s.skipIf (s.keys.toList.getD (s.readV x).toNat false)) ∧
      (execSknp x s = .next t → t = s.skipIf !(s.keys.toList.getD (s.readV x).toNat false)) := by
  rcases Nat.lt_or_ge (s.readV x).toNat 16 with hx | hx
  · obtain ⟨hskp, hsknp⟩ := execSkp_of_lt hx
    rw [hskp, hsknp, getD_toList_of_lt _ hx]
    exact ⟨fun h => by cases h; rfl, fun h => by cases h; rfl⟩
  · obtain ⟨hskp, hsknp⟩ := execSkp_of_ge hx
    rw [hskp, hsknp]
    exact ⟨fun h => absurd h (next_raise_ne ht _ _), fun h => absurd h (next_raise_ne ht _ _)⟩

end

/-- An instruction that executes without a fault leaves PC where the directive table puts it. -/
theorem toNat_pc_of_exec {i : Instr} {s t : State} (h : exec i s = .next t) (ht : t.safe)
    (hpc : s.pc.toNat ≤ 0xFFE) : t.pc.toNat = pcAfter i s := by
  have hnext (hp : t.pc = s.pc + 2) : t.pc.toNat = s.pc.toNat + 2 := by
    rw [hp]
    exact toNat_pc_add hpc (n := 2) (by decide)
  cases i with
  | jp nnn =>
    cases h
    exact addrWord_toNat nnn
  | jpV0 nnn =>
    cases h
    exact toNat_addrWord_add_byteWord nnn _
  | call nnn => exact (congrArg BitVec.toNat (pc_of_execCall h ht)).trans (addrWord_toNat nnn)
  | ret => exact congrArg BitVec.toNat (pc_of_execRet h ht)
  | seImm | seReg =>
    cases h
    exact toNat_skipIf_pc hpc beq_iff_eq
  | sneImm | sneReg =>
    cases h
    exact toNat_skipIf_pc_not hpc bne_iff_ne
  | skp x =>
    rw [(eq_skipIf_of_execSkp ht).1 h]
    exact toNat_skipIf_pc hpc Iff.rfl
  | sknp x =>
    rw [(eq_skipIf_of_execSkp ht).2 h]
    exact toNat_skipIf_pc_not hpc (by simp [State.readV])
  | drw x y n => exact hnext (pc_of_execDrw h ht)
  | ldBVx | ldMemVx => exact hnext (pc_of_storeAtIndex h ht)
  | ldVxMem x => exact hnext (pc_of_loadRegs ((execLdVxMem_eq x s).symm.trans h) ht)
  | ldVxK x =>
    cases h
    rfl
  | _ =>
    cases h
    exact hnext rfl

/-- The wait machine moves PC exactly when a key is down (D9). -/
theorem waitMachine_pc (s : State) :
    s.waitMachine.pc = if ∃ k : Reg, s.keys[k.val] = true then s.pc + 2 else s.pc := by
  rw [State.waitMachine_eq]
  cases hk : firstKey s.keys with
  | some k => exact (if_pos ⟨k, (firstKey_eq_some.mp hk).1⟩).symm
  | none =>
    have hup := firstKey_eq_none.mp hk
    exact (if_neg fun ⟨k, hdown⟩ => Bool.false_ne_true ((hup k).symm.trans hdown)).symm

theorem waitMachine_fault (s : State) : s.waitMachine.fault = s.fault := by
  rw [State.waitMachine_eq]
  cases firstKey s.keys <;> rfl

/-- A tick that faults has made its start and written the fault register, nothing else (60_exceptions.md R205). -/
theorem eq_begin_of_faulting_tick {inp : TickInput} {s t : State} (h : tick inp s = .next t) (hs : s.safe)
    (ht : ¬ t.safe) : t = { s.begin inp with fault := t.fault } := by
  rcases tick_cases h with ⟨hf, -⟩ | ⟨-, -, rfl⟩ | ⟨-, -, -, rfl⟩ | ⟨-, -, -, op, -, hx⟩
  · exact absurd hs hf
  · exact absurd ((waitMachine_fault (s.begin inp)).trans hs) ht
  · rfl
  · exact (effect_of_exec hx).eq_of_not_safe hs ht

/-- A running machine's tick that does not fault has fetched a word and executed it. -/
theorem exec_of_safe_tick {inp : TickInput} {s t : State} (h : tick inp s = .next t) (hs : s.safe)
    (ht : t.safe) (hr : s.mode = .running) :
    s.pc.toNat ≤ 0xFFE ∧
      ∃ op, Memory.fetch16 s.mem s.pc.toNat = some op ∧ exec (decode op) (s.begin inp) = .next t := by
  rcases tick_cases h with ⟨hf, -⟩ | ⟨-, hw, -⟩ | ⟨-, -, -, rfl⟩ | ⟨-, -, hpc, hx⟩
  · exact absurd hs hf
  · cases hr.symm.trans hw
  · cases ht
  · exact ⟨hpc, hx⟩

/-- Settles O15: the faulted tick by R99, the faulting one by R205, the wait by its machine, the rest by the
directive table. -/
theorem programCounterMovesByItsDirective : Obligations.ProgramCounterMovesByItsDirective := by
  intro inp s t h
  refine ⟨fun hs => ?_, fun hs ht => ?_, fun hs hw => ?_, fun hs ht hr => ?_⟩
  · obtain ⟨f, hf⟩ := Option.ne_none_iff_exists'.mp hs
    cases (tick_of_faulted hf inp).symm.trans h
    rfl
  · exact (congrArg State.pc (eq_begin_of_faulting_tick h hs ht) :)
  · cases (tick_of_waiting hs hw inp).symm.trans h
    exact waitMachine_pc _
  · obtain ⟨hpc, op, hop, hx⟩ := exec_of_safe_tick h hs ht hr
    exact ⟨op, hop, toNat_pc_of_exec hx ht hpc⟩

/-! ### The output record (R98, R96) -/

/-- The unknown words are those the decoder finds unknown (30_encoding.md R77). -/
theorem isUnknownWord_iff {op : Word} : isUnknownWord op = true ↔ decode op = .unknown op :=
  ⟨decode_of_isUnknownWord, isUnknownWord_of_decode⟩

/-- The instructions that write the display buffer (44_display.md R171, R173). -/
def IsDraw (i : Instr) : Prop := i = .cls ∨ ∃ x y n, i = .drw x y n

section
variable {i : Instr} {s t : State}

/-- CLS always and DRW unless it faults mark the buffer dirty. -/
theorem dirty_of_exec_draw (hi : IsDraw i) (h : exec i s = .next t) (ht : t.safe) : t.dirty = true := by
  rcases hi with rfl | ⟨x, y, n, rfl⟩
  · cases h
    rfl
  · rw [eq_of_ite_raise ((execDrw_eq x y n s).symm.trans h) ht, State.flow_dirty, State.markDirty_dirty]

/-- In a tick, only an instruction that writes the buffer and does not fault leaves it dirty. -/
theorem dirty_iff_of_exec (h : exec i s = .next t) (hs : s.safe) (hd : s.dirty = false) :
    t.dirty = true ↔ t.safe ∧ IsDraw i := by
  have he := effect_of_exec h
  constructor
  · intro hdirty
    refine ⟨?_, ?_⟩
    · by_contra ht
      rw [he.eq_of_not_safe hs ht] at hdirty
      exact Bool.false_ne_true (hd.symm.trans hdirty)
    · by_contra hi
      obtain ⟨hcls, hdrw⟩ := not_or.mp hi
      have hkept := (he.disp_dirty_eq hcls fun x y n hn => hdrw ⟨x, y, n, hn⟩).2
      exact Bool.false_ne_true (hd.symm.trans (hkept.symm.trans hdirty))
  · rintro ⟨ht, hi⟩
    exact dirty_of_exec_draw hi h ht

/-- In a tick, only an unknown word is reported, and it is the word executed. -/
theorem unknownOpcode_iff_of_exec {op w : Word} (h : exec (decode op) s = .next t) (hu : s.unknownOpcode = none) :
    t.unknownOpcode = some w ↔ op = w ∧ isUnknownWord op = true := by
  by_cases hd : decode op = .unknown op
  · rw [hd] at h
    cases h
    simp [isUnknownWord_iff, hd]
  · have hkept := (effect_of_exec h).unknownOpcode_eq fun v hv => hd (eq_of_decode_eq_unknown hv ▸ hv)
    simp [hkept, hu, isUnknownWord_iff, hd]

end

theorem waitMachine_ports (s : State) :
    s.waitMachine.dirty = s.dirty ∧ s.waitMachine.unknownOpcode = s.unknownOpcode := by
  rw [State.waitMachine_eq]
  cases firstKey s.keys <;> exact ⟨rfl, rfl⟩

section
variable {inp : TickInput} {s t : State}

theorem dirty_iff_of_tick (h : tick inp s = .next t) (hs : s.safe) :
    t.dirty = true ↔ t.safe ∧ s.mode = .running ∧
      ∃ op, Memory.fetch16 s.mem s.pc.toNat = some op ∧ IsDraw (decode op) := by
  rcases tick_cases h with ⟨hf, -⟩ | ⟨-, hw, rfl⟩ | ⟨-, -, -, rfl⟩ | ⟨-, hr, -, op, hop, hx⟩
  · exact absurd hs hf
  · simp [waitMachine_ports, hw]
  · simp
  · simp [dirty_iff_of_exec hx hs rfl, hr, hop]

theorem unknownOpcode_iff_of_tick (h : tick inp s = .next t) (hs : s.safe) (w : Word) :
    t.unknownOpcode = some w ↔
      s.mode = .running ∧ Memory.fetch16 s.mem s.pc.toNat = some w ∧ isUnknownWord w = true := by
  rcases tick_cases h with ⟨hf, -⟩ | ⟨-, hw, rfl⟩ | ⟨-, -, hpc, rfl⟩ | ⟨-, hr, -, op, hop, hx⟩
  · exact absurd hs hf
  · simp [waitMachine_ports, hw]
  · simp [Memory.fetch16_eq_none.mpr hpc]
  · rw [unknownOpcode_iff_of_exec hx rfl, hop, Option.some_inj]
    simp only [hr, true_and]
    exact and_congr_right fun e => e ▸ Iff.rfl

/-- The tick port of an unfaulted machine: the tick, and the outputs of the state it leaves. -/
theorem tickPort_of_safe {o : TickOutput} (hs : s.safe) (h : tickPort inp s = .next (t, o)) :
    tick inp s = .next t ∧ o = t.outputs := by
  obtain ⟨u, hu⟩ := tick_total inp s
  rw [tickPort, hu, hs] at h
  cases h
  exact ⟨hu, rfl⟩

end

theorem outputs_display_eq_some {t : State} {d : Display} :
    t.outputs.display = some d ↔ d = t.disp ∧ t.dirty = true := by
  rw [State.outputs, Option.ite_none_right_eq_some, Option.some_inj, and_comm, eq_comm]

/-- Settles O16: the display shows a dirty buffer, which only CLS and DRW leave, and the unknown opcode is that of the
state the tick leaves. -/
theorem tickOutputsShowTheTick : Obligations.TickOutputsShowTheTick := by
  intro inp s t o hs h
  obtain ⟨htick, rfl⟩ := tickPort_of_safe hs h
  refine ⟨htick, soundActive_eq t.st, rfl, fun d => ?_, unknownOpcode_iff_of_tick htick hs⟩
  rw [outputs_display_eq_some, dirty_iff_of_tick htick hs]
  rfl

/-! ### The random byte reaches RND alone (R101) -/

/-- The state with another byte at the `rand` port. -/
def State.withRand (s : State) (r : Byte) : State := { s with rand := r }

/-- An answer with another byte at the `rand` port. -/
def Result.withRand (r : Byte) : Result → Result
  | .next s => .next (s.withRand r)
  | .fault f => .fault f
  | .refused q => .refused q

section
variable (r : Byte) (s : State)

@[simp] theorem State.withRand_keys : (s.withRand r).keys = s.keys := rfl

theorem State.writeV_withRand (x : Reg) (b : Byte) : (s.withRand r).writeV x b = (s.writeV x b).withRand r := rfl

/-- The random byte enters a tick at the `rand` port and nowhere else. -/
theorem State.begin_withRand (keys : Keys) (r₁ r₂ : Byte) :
    s.begin ⟨keys, r₂⟩ = (s.begin ⟨keys, r₁⟩).withRand r₂ := rfl

theorem State.skipIf_withRand (c : Bool) : (s.withRand r).skipIf c = (s.skipIf c).withRand r := by
  cases c <;> rfl

theorem State.storeAtIndex_withRand (bs : List Byte) :
    (s.withRand r).storeAtIndex bs = Result.withRand r (s.storeAtIndex bs) := by
  rw [s.storeAtIndex_eq, apply_ite (Result.withRand r)]
  exact (s.withRand r).storeAtIndex_eq bs

theorem State.loadRegs_withRand (x : Reg) : (s.withRand r).loadRegs x = Result.withRand r (s.loadRegs x) := by
  rw [s.loadRegs_eq, apply_ite (Result.withRand r)]
  exact (s.withRand r).loadRegs_eq x

theorem execCall_withRand (nnn : BitVec 12) :
    execCall nnn (s.withRand r) = Result.withRand r (execCall nnn s) := by
  by_cases h : s.sp.val < 16
  · rw [execCall_of_lt h]
    exact execCall_of_lt (s := s.withRand r) h nnn
  · rw [execCall_of_full h]
    exact execCall_of_full (s := s.withRand r) h nnn

theorem execRet_withRand : execRet (s.withRand r) = Result.withRand r (execRet s) := by
  by_cases h : 0 < s.sp.val
  · rw [execRet_of_pos h]
    exact execRet_of_pos (s := s.withRand r) h
  · rw [execRet_of_empty h]
    exact execRet_of_empty (s := s.withRand r) h

theorem execSkp_withRand (x : Reg) :
    execSkp x (s.withRand r) = Result.withRand r (execSkp x s) ∧
      execSknp x (s.withRand r) = Result.withRand r (execSknp x s) := by
  rcases Nat.lt_or_ge (s.readV x).toNat 16 with h | h
  · obtain ⟨hskp, hsknp⟩ := execSkp_of_lt h
    obtain ⟨hskp', hsknp'⟩ := execSkp_of_lt (s := s.withRand r) h
    rw [hskp, hskp', hsknp, hsknp', State.skipIf_withRand, State.skipIf_withRand]
    exact ⟨rfl, rfl⟩
  · obtain ⟨hskp, hsknp⟩ := execSkp_of_ge h
    rw [hskp, hsknp]
    exact execSkp_of_ge (s := s.withRand r) h

theorem drawRows_withRand (x y : Reg) (bs : List Byte) (k : Nat) (s : State) :
    drawRows x y k bs (s.withRand r) = (drawRows x y k bs s).withRand r := by
  induction bs generalizing k s with
  | nil => rfl
  | cons b bs ih =>
    have hrow (q : Fin 32) : drawRow x q b (s.withRand r) = (drawRow x q b s).withRand r :=
      List.foldl_hom (State.withRand · r) fun _ _ => rfl
    rw [drawRows, hrow, ih]
    rfl

theorem execDrw_withRand (x y : Reg) (n : BitVec 4) :
    execDrw x y n (s.withRand r) = Result.withRand r (execDrw x y n s) := by
  rw [execDrw_eq, execDrw_eq, apply_ite (Result.withRand r), State.writeV_withRand, drawRows_withRand]
  rfl

/-- Every instruction but RND does the same whatever byte is at the `rand` port. -/
theorem exec_withRand {i : Instr} (hi : ∀ x kk, i ≠ .rnd x kk) :
    exec i (s.withRand r) = Result.withRand r (exec i s) := by
  cases i with
  | rnd x kk => exact absurd rfl (hi x kk)
  | call nnn => exact execCall_withRand r s nnn
  | ret => exact execRet_withRand r s
  | seImm | sneImm | seReg | sneReg => exact congrArg Host.Outcome.next (s.skipIf_withRand r _)
  | skp x => exact (execSkp_withRand r s x).1
  | sknp x => exact (execSkp_withRand r s x).2
  | drw x y n => exact execDrw_withRand r s x y n
  | ldBVx | ldMemVx => exact s.storeAtIndex_withRand r _
  | ldVxMem x =>
    rw [exec, exec, execLdVxMem_eq, execLdVxMem_eq]
    exact s.loadRegs_withRand r x
  | _ => rfl

theorem State.waitMachine_withRand : (s.withRand r).waitMachine = s.waitMachine.withRand r := by
  rw [s.waitMachine_eq, (s.withRand r).waitMachine_eq, State.withRand_keys]
  cases firstKey s.keys <;> rfl

end

/-- An unfaulted tick that does not execute RND does the same whatever the random byte. -/
theorem tick_withRand {s : State} (keys : Keys) (r₁ r₂ : Byte) (hs : s.safe)
    (hi : s.mode = .running → ∀ op x kk, Memory.fetch16 s.mem s.pc.toNat = some op → decode op ≠ .rnd x kk) :
    tick ⟨keys, r₂⟩ s = Result.withRand r₂ (tick ⟨keys, r₁⟩ s) := by
  cases hm : s.mode with
  | waitingForKey =>
    rw [tick_of_waiting hs hm, tick_of_waiting hs hm, s.begin_withRand keys r₁, State.waitMachine_withRand]
    rfl
  | running =>
    cases hop : Memory.fetch16 s.mem s.pc.toNat with
    | some op =>
      rw [tick_of_fetch hs hm hop, tick_of_fetch hs hm hop, s.begin_withRand keys r₁]
      exact exec_withRand r₂ _ fun x kk => hi hm op x kk hop
    | none =>
      have hpc := Memory.fetch16_eq_none.mp hop
      rw [fetchAboveMemoryFaults _ s hs hm hpc, fetchAboveMemoryFaults _ s hs hm hpc]
      rfl

/-- Settles O17: a faulted tick reads no input; in any other the byte stays at its port. -/
theorem randomByteReachesOnlyRnd : Obligations.RandomByteReachesOnlyRnd := by
  intro keys r₁ r₂ s t₁ t₂ hi h₁ h₂
  cases hf : s.fault with
  | some f =>
    cases (tick_of_faulted hf _).symm.trans h₁
    cases (tick_of_faulted hf _).symm.trans h₂
    rfl
  | none =>
    rw [tick_withRand keys r₁ r₂ hf (hi hf), h₁] at h₂
    cases h₂
    rfl

end Sys2Proof.Machine
end

section
/-! PROOFS. 41_control_flow.md. The jumps, the four register skips, and the return stack: CALL and RET by the room on
it, and a RET that undoes a CALL. -/

namespace Sys2Proof.Machine

/-! ### Jumps (R112, R118) -/

/-- Settles O22: the zero-extended address is the number of `nnn` in 16 bits. -/
theorem jumpGoesToItsAddress : Obligations.JumpGoesToItsAddress := by
  intro nnn s
  rw [← addrWord_eq]
  rfl

/-- Settles O23: the sum of a 12-bit and an 8-bit number fits in PC. -/
theorem jumpWithOffsetAddsV0 : Obligations.JumpWithOffsetAddsV0 := by
  intro nnn s
  exact ⟨_, rfl, toNat_addrWord_add_byteWord nnn (s.readV 0), rfl⟩

/-! ### Register skips (R114 to R117) -/

/-- The end of a conditional skip, by the condition that selects it: PC alone moves. -/
theorem State.skipIf_eq (s : State) {c : Bool} {p : Prop} [Decidable p] (hc : c = true ↔ p) :
    s.skipIf c = { s with pc := if p then s.pc + 4 else s.pc + 2 } := by
  rw [← if_congr hc rfl rfl]
  cases c <;> rfl

/-- Settles O27: each of the four is a skip on its comparison. -/
theorem registerSkipsTestTheirCondition : Obligations.RegisterSkipsTestTheirCondition := by
  intro x y kk s
  exact ⟨congrArg _ (s.skipIf_eq beq_iff_eq), congrArg _ (s.skipIf_eq bne_iff_ne),
    congrArg _ (s.skipIf_eq beq_iff_eq), congrArg _ (s.skipIf_eq bne_iff_ne)⟩

/-! ### The return stack (R111, R113) -/

/-- A write to a slot that exists, as the statements write it. -/
theorem setIfInBounds_of_lt {α : Type} {n k : Nat} (v : Vector α n) (h : k < n) (a : α) :
    v.setIfInBounds k a = v.set k a := by
  ext j hj
  simp only [Vector.getElem_setIfInBounds, Vector.getElem_set]

/-- A stack pointer within 0 to 16, as the statements write it. -/
theorem finOfNat_sp_of_lt {k : Nat} (h : k < 17) : Fin.ofNat 17 k = ⟨k, h⟩ :=
  Fin.ext (Nat.mod_eq_of_lt h)

/-- Settles O24: the two clauses are CALL with room on the stack and CALL on a full one. -/
theorem callPushesTheReturnAddress : Obligations.CallPushesTheReturnAddress := by
  intro nnn s
  refine ⟨fun hroom => ?_, fun hfull => execCall_of_full (by omega) nnn⟩
  rw [setIfInBounds_of_lt _ hroom, finOfNat_sp_of_lt (by omega), ← addrWord_eq]
  exact execCall_of_lt hroom nnn

/-- Settles O25: the two clauses are RET with an address on the stack and RET on an empty one. -/
theorem returnPopsTheNewestAddress : Obligations.ReturnPopsTheNewestAddress := by
  intro s
  refine ⟨fun a hpos ha => ?_, fun hempty => execRet_of_empty (by omega)⟩
  obtain ⟨hlt, rfl⟩ := Vector.getElem?_eq_some_iff.mp ha
  rw [finOfNat_sp_of_lt (by omega)]
  exact execRet_of_pos hpos

/-- Settles O26: the RET reads the slot the CALL wrote and takes back its increment of SP. -/
theorem callThenReturnComesBack : Obligations.CallThenReturnComesBack := by
  intro nnn s p hroom
  refine ⟨_, execCall_of_lt hroom nnn, ?_⟩
  rw [(returnPopsTheNewestAddress _).1 (s.pc + 2) (Nat.succ_pos s.sp.val :) (Vector.getElem?_set_self hroom :),
    setIfInBounds_of_lt _ hroom]
  simp only [Nat.add_sub_cancel, Fin.ofNat_val_eq_self]

end Sys2Proof.Machine
end

section
/-! PROOFS. 42_load_alu.md. The loads and the bitwise operations write one register; the flag-writing instructions write
VF and a result, in the order of their statements, which decides what is left when VF is an operand (R143). -/

namespace Sys2Proof.Machine

/-! ### Byte arithmetic as numbers -/

section
variable (a b : Byte)

theorem byte_add_eq : a + b = BitVec.ofNat 8 ((a.toNat + b.toNat) % 256) := by bv_omega

theorem byte_sub_eq : a - b = BitVec.ofNat 8 ((a.toNat + 256 - b.toNat) % 256) := by bv_omega

theorem byte_shiftRight_one_eq : a >>> 1 = BitVec.ofNat 8 (a.toNat / 2) := by bv_omega

theorem byte_shiftLeft_one_eq : a <<< 1 = BitVec.ofNat 8 (a.toNat * 2 % 256) := by bv_omega

theorem greaterFlag_toNat : (greaterFlag a b).toNat = if a.toNat > b.toNat then 1 else 0 := by
  rw [greaterFlag_eq, apply_ite BitVec.toNat]
  rfl

/-- The flag of SUB and SUBN, as the table of R143 writes it where VF keeps it. -/
theorem greaterFlag_eq_ofNat : greaterFlag a b = BitVec.ofNat 8 (if a.toNat > b.toNat then 1 else 0) := by
  rw [← greaterFlag_toNat, BitVec.ofNat_toNat, BitVec.setWidth_eq]

/-- A flag holds one bit, so SHR of it leaves nothing. -/
theorem lowBitFlag_shiftRight_one : lowBitFlag a >>> 1 = 0 := by
  unfold lowBitFlag
  cases a.getLsbD 0 <;> rfl

/-- SHL of the bit that SHL takes out. -/
theorem highBitFlag_shiftLeft_one : highBitFlag a <<< 1 = BitVec.ofNat 8 (2 * (a.toNat / 128)) := by
  rw [highBitFlag_eq]
  bv_omega

end

/-! ### Writes of one register (R130 to R135, R142) -/

/-- The end of the instructions that write one register and go to the next. -/
theorem next_writeV_flow (s : State) (x : Reg) (b : Byte) :
    (.next ((s.writeV x b).flow .next) : Result) = .next { s with v := s.v.set x.val b, pc := s.pc + 2 } := rfl

/-- Settles O28: each of the five is one register write. -/
theorem loadsAndBitwiseOperationsWriteTheirResult : Obligations.LoadsAndBitwiseOperationsWriteTheirResult :=
  fun x _ _ s => ⟨next_writeV_flow s x _, next_writeV_flow s x _, next_writeV_flow s x _, next_writeV_flow s x _,
    next_writeV_flow s x _⟩

/-- Settles O29: one register write, of the sum. -/
theorem addImmediateWrapsWithoutFlag : Obligations.AddImmediateWrapsWithoutFlag := by
  intro x kk s
  rw [← byte_add_eq]
  exact next_writeV_flow s x _

/-- Settles O34: one register write, of the port byte under the mask. -/
theorem randomWritesThePortByteMasked : Obligations.RandomWritesThePortByteMasked :=
  fun x _ s => next_writeV_flow s x _

/-! ### The instructions that write VF (R137 to R141) -/

section
variable (x y : Reg) (s : State)

/-- ADD Vx, Vy: the sum, then the carry. -/
theorem exec_addReg_eq :
    exec (.addReg x y) s = .next { s with
      v := (s.v.set x.val (s.v[x.val] + s.v[y.val])).set 15 (carryFlag s.v[x.val] s.v[y.val]), pc := s.pc + 2 } := rfl

theorem exec_sub_eq :
    exec (.sub x y) s = .next (s.flagThen (greaterFlag s.v[x.val] s.v[y.val]) x y fun a b => a - b) := rfl

theorem exec_subn_eq :
    exec (.subn x y) s = .next (s.flagThen (greaterFlag s.v[y.val] s.v[x.val]) x y fun a b => b - a) := rfl

theorem exec_shr_eq : exec (.shr x y) s = .next (s.flagThen (lowBitFlag s.v[x.val]) x x fun a _ => a >>> 1) := rfl

theorem exec_shl_eq : exec (.shl x y) s = .next (s.flagThen (highBitFlag s.v[x.val]) x x fun a _ => a <<< 1) := rfl

end

/-- Settles O30: the two writes of ADD, the sum and the carry as numbers. -/
theorem addRegistersWritesSumThenCarry : Obligations.AddRegistersWritesSumThenCarry := by
  intro x y s
  dsimp only
  rw [exec_addReg_eq, byte_add_eq, carryFlag_eq]

/-- Settles O31: both are flag, then difference. -/
theorem subtractionsWriteFlagThenDifference : Obligations.SubtractionsWriteFlagThenDifference := by
  intro x y s
  constructor
  · rw [exec_sub_eq, State.flagThen_eq, greaterFlag_eq, byte_sub_eq]
    rfl
  · rw [exec_subn_eq, State.flagThen_eq, greaterFlag_eq, byte_sub_eq]
    rfl

/-- Settles O32: both are bit shifted out, then shift; neither reads `y`. -/
theorem shiftsWriteTheBitShiftedOut : Obligations.ShiftsWriteTheBitShiftedOut := by
  intro x y s
  constructor
  · rw [exec_shr_eq, State.flagThen_eq, lowBitFlag_eq, byte_shiftRight_one_eq]
    rfl
  · rw [exec_shl_eq, State.flagThen_eq, highBitFlag_eq, byte_shiftLeft_one_eq]
    rfl

/-! ### VF as an operand (R143)

ADD writes VF last. The others compute their result after the flag is written, so VF as an operand reads as the flag. -/

section
variable {z : Reg} (s : State) (flag : Byte) (f : Byte → Byte → Byte)

/-- VF as the first operand of ADD: the carry takes the place of the sum. -/
theorem exec_addReg_vf_left (y : Reg) :
    exec (.addReg 15 y) s = .next { s with v := s.v.set 15 (carryFlag s.v[15] s.v[y.val]), pc := s.pc + 2 } := by
  rw [exec_addReg_eq]
  simp

/-- VF as the first operand: the result takes the place of the flag. -/
theorem State.flagThen_vf_left (hz : z ≠ 15) :
    s.flagThen flag 15 z f = { s with v := s.v.set 15 (f flag s.v[z.val]), pc := s.pc + 2 } := by
  have h : (15 : Nat) ≠ z.val := fun e => hz (Fin.ext e.symm)
  rw [State.flagThen_eq]
  simp [vf, h]

/-- VF as the second operand: it keeps the flag. -/
theorem State.flagThen_vf_right (hz : z ≠ 15) :
    s.flagThen flag z 15 f = { s with v := (s.v.set z.val (f s.v[z.val] flag)).set 15 flag, pc := s.pc + 2 } := by
  have h : (15 : Nat) ≠ z.val := fun e => hz (Fin.ext e.symm)
  rw [State.flagThen_eq]
  simpa [vf, h] using Vector.set_comm _ _ h

/-- VF as both operands. -/
theorem State.flagThen_vf_both :
    s.flagThen flag 15 15 f = { s with v := s.v.set 15 (f flag flag), pc := s.pc + 2 } := by
  rw [State.flagThen_eq]
  simp [vf]

end

/-- Settles O33: in ADD the carry replaces the sum where x = 15; in the other four the flag is an operand. -/
theorem vfAsOperandFollowsTheTable : Obligations.VfAsOperandFollowsTheTable := by
  intro z s hz
  dsimp only
  refine ⟨?add_left, ?add_right, ?add_both, ?sub_left, ?sub_right, ?sub_both, ?subn_left, ?subn_right, ?subn_both,
    fun y => ?shr, fun y => ?shl⟩
  case add_left => rw [exec_addReg_vf_left, carryFlag_eq]
  case add_right => rw [exec_addReg_eq, byte_add_eq, carryFlag_eq, Nat.add_comm s.v[15].toNat]; rfl
  case add_both => rw [exec_addReg_vf_left, carryFlag_eq, Nat.two_mul]; rfl
  case sub_left => rw [exec_sub_eq, s.flagThen_vf_left _ _ hz, byte_sub_eq, greaterFlag_toNat]; rfl
  case sub_right =>
    rw [exec_sub_eq, s.flagThen_vf_right _ _ hz, byte_sub_eq, greaterFlag_toNat, greaterFlag_eq_ofNat]; rfl
  case sub_both => rw [exec_sub_eq, s.flagThen_vf_both, BitVec.sub_self]; rfl
  case subn_left => rw [exec_subn_eq, s.flagThen_vf_left _ _ hz, byte_sub_eq, greaterFlag_toNat]; rfl
  case subn_right =>
    rw [exec_subn_eq, s.flagThen_vf_right _ _ hz, byte_sub_eq, greaterFlag_toNat, greaterFlag_eq_ofNat]; rfl
  case subn_both => rw [exec_subn_eq, s.flagThen_vf_both, BitVec.sub_self]; rfl
  case shr => rw [exec_shr_eq, s.flagThen_vf_both, lowBitFlag_shiftRight_one]
  case shl => rw [exec_shl_eq, s.flagThen_vf_both, highBitFlag_shiftLeft_one]; rfl

end Sys2Proof.Machine
end

section
/-! PROOFS. 43_index_memory.md. The writes of I, then the transfers between registers and memory: a store and a load are
each one run of bytes at I, moved whole or not at all. -/

namespace Sys2Proof.Machine

/-! ### The index register (R150 to R152) -/

/-- Settles O35: the zero-extended address is the number of `nnn` in 16 bits. -/
theorem loadIndexTakesTheAddress : Obligations.LoadIndexTakesTheAddress := by
  intro nnn s
  rw [← addrWord_eq]
  rfl

/-- The new I of ADD I, Vx as a number (D2). -/
theorem word_add_byteWord_eq (i : Word) (b : Byte) :
    i + byteWord b = BitVec.ofNat 16 ((i.toNat + b.toNat) % 65536) := by
  refine BitVec.eq_of_toNat_eq ?_
  rw [BitVec.toNat_add, byteWord_toNat, BitVec.toNat_ofNat, Nat.mod_mod]

/-- The flag of ADD I, Vx compares the stored I with the default threshold (D18). -/
theorem indexFlag_eq (i : Word) : indexFlag i = if i.toNat > 0x0F00 then 1 else 0 := by
  simp [indexFlag, flagByte, addiFlagThreshold]

/-- ADD I, Vx: the sum, then the flag of the sum. -/
theorem exec_addIVx_eq (x : Reg) (s : State) :
    exec (.addIVx x) s = .next { s with
      index := s.index + byteWord s.v[x.val]
      v := s.v.set 15 (indexFlag (s.index + byteWord s.v[x.val]))
      pc := s.pc + 2 } := rfl

/-- Settles O36: the flag, written last, is that of the sum as stored. -/
theorem addToIndexSetsTheThresholdFlag : Obligations.AddToIndexSetsTheThresholdFlag := by
  intro x s
  dsimp only
  rw [exec_addIVx_eq, word_add_byteWord_eq, indexFlag_eq, BitVec.toNat_ofNat, Nat.mod_mod]

/-- Settles O37: five times a byte fits in I. -/
theorem fontAddressIsFiveTimesTheDigit : Obligations.FontAddressIsFiveTimesTheDigit := by
  intro x s
  exact ⟨_, rfl, glyphAddr_toNat (s.readV x), rfl⟩

/-! ### The MemoryFault of a transfer (R209) -/

/-- The fault of a run from a, with its info as the statements write it. -/
theorem next_raise_firstBad (s : State) (a : Nat) :
    (.next (s.raise .memoryFault (firstBad a)) : Result) =
      .next { s with fault := some ⟨.memoryFault, if 0xFFF < a then a else 0x1000⟩ } := by
  rw [firstBad_eq]
  rfl

/-! ### Stores at I (R153, R154) -/

/-- A run of writes inside memory, read back: its k-th byte at a + k. -/
theorem Memory.read_putRun_add {m : Memory} {a k : Nat} {bs : List Byte} (hm : Memory.wf m = true)
    (ha : a + bs.length ≤ Config.memSize) (hk : k < bs.length) :
    Memory.read (Memory.putRun m a bs) (a + k) = bs[k]? := by
  rw [Memory.read_writeRun hm (Memory.writeRun_eq.trans (if_pos (.inr ha))), if_pos (by omega),
    Nat.add_sub_cancel_left]

/-- A run of writes inside memory leaves every address outside it alone. -/
theorem Memory.read_putRun_of_outside {m : Memory} {a c : Nat} {bs : List Byte} (hm : Memory.wf m = true)
    (ha : a + bs.length ≤ Config.memSize) (hc : c < a ∨ a + bs.length ≤ c) :
    Memory.read (Memory.putRun m a bs) c = Memory.read m c := by
  rw [Memory.read_writeRun hm (Memory.writeRun_eq.trans (if_pos (.inr ha))), if_neg (by omega)]

section
variable {s : State} {bs : List Byte}

/-- A store at I that fits. -/
theorem State.storeAtIndex_of_fits (hm : Memory.wf s.mem = true) (ha : s.index.toNat + bs.length ≤ Config.memSize) :
    ∃ m, s.storeAtIndex bs = .next { s with mem := m, pc := s.pc + 2 } ∧ Memory.wf m = true ∧
      (∀ k, k < bs.length → Memory.read m (s.index.toNat + k) = bs[k]?) ∧
      ∀ c, c < s.index.toNat ∨ s.index.toNat + bs.length ≤ c → Memory.read m c = Memory.read s.mem c :=
  ⟨_, (s.storeAtIndex_eq bs).trans (if_pos (.inr ha)), Memory.wf_putRun ha hm,
    fun _ => Memory.read_putRun_add hm ha, fun _ => Memory.read_putRun_of_outside hm ha⟩

/-- A store at I that does not fit. -/
theorem State.storeAtIndex_of_not_fits (hbs : bs.length ≠ 0) (ha : Config.memSize < s.index.toNat + bs.length) :
    s.storeAtIndex bs = .next { s with
      fault := some ⟨.memoryFault, if 0xFFF < s.index.toNat then s.index.toNat else 0x1000⟩ } := by
  rw [State.storeAtIndex_eq, if_neg (by omega), next_raise_firstBad]

end

/-- Settles O38: LD B is a store of three bytes. -/
theorem bcdStoreWritesThreeDigits : Obligations.BcdStoreWritesThreeDigits := by
  intro x s hm
  have hsize : Config.memSize = 4096 := rfl
  have hlen : (bcdDigits (s.readV x)).length = 3 := length_bcdDigits _
  constructor
  · intro ha
    obtain ⟨m, hexec, hwf, hin, hout⟩ := State.storeAtIndex_of_fits (bs := bcdDigits (s.readV x)) hm (by omega)
    exact ⟨m, hexec, hwf, hin 0 (by omega), hin 1 (by omega), hin 2 (by omega),
      fun c h0 h1 h2 => hout c (by omega)⟩
  · intro ha
    exact State.storeAtIndex_of_not_fits (bs := bcdDigits (s.readV x)) (by omega) (by omega)

/-- Settles O39: LD [I] is a store of x + 1 bytes, the k-th of them V[k]. -/
theorem storeRegistersWritesTheRun : Obligations.StoreRegistersWritesTheRun := by
  intro x s hm
  have hsize : Config.memSize = 4096 := rfl
  have hlen := s.length_regsTo x
  constructor
  · intro ha
    obtain ⟨m, hexec, hwf, hin, hout⟩ := State.storeAtIndex_of_fits (bs := s.regsTo x) hm (by omega)
    refine ⟨m, hexec, hwf, fun k hk => ?_, fun c hc => hout c (by omega)⟩
    rw [hin k.val (hlen ▸ Nat.lt_succ_of_le hk), s.getElem?_regsTo x k.val hk]
    rfl
  · intro ha
    exact State.storeAtIndex_of_not_fits (bs := s.regsTo x) (by omega) (by omega)

/-! ### Loads from I (R155, R156) -/

/-- V0 to Vx filled with x + 1 bytes: the registers up to x take them in order, the others are kept. -/
theorem getElem_fillV_zero {x : Reg} {bs : List Byte} (hbs : bs.length = x.val + 1) (v : Vector Byte 16) (k : Reg) :
    (fillV 0 bs v)[k.val] = if k ≤ x then bs.getD k.val 0 else v[k.val] := by
  rw [getElem_fillV, Nat.sub_zero]
  exact if_congr (by rw [Fin.le_def]; omega) rfl rfl

/-- The k-th byte of a run inside memory is what an ascending read finds. -/
theorem Memory.some_getD_byteAt {m : Memory} {a n k : Nat} (ha : a + n ≤ Config.memSize) (hk : k < n) :
    some (((List.range n).map fun j => Memory.byteAt m (a + j)).getD k 0) = Memory.read m (a + k) := by
  rw [Memory.read_of_lt (by omega)]
  simp [hk]

/-- Settles O40: the normative form fills V0 to Vx with the run at I. -/
theorem loadRegistersReadsTheRun : Obligations.LoadRegistersReadsTheRun := by
  intro x s
  have hsize : Config.memSize = 4096 := rfl
  have hexec : exec (.ldVxMem x) s = s.loadRegs x := execLdVxMem_eq x s
  rw [hexec, State.loadRegs_eq]
  refine ⟨fun ha => ⟨_, if_pos (by omega), fun k => ?_⟩, fun ha => ?_⟩
  · rw [getElem_fillV_zero (x := x) (by simp), apply_ite some]
    exact ite_congr rfl (fun hk => Memory.some_getD_byteAt (by omega) (Nat.lt_succ_of_le hk)) fun _ => rfl
  · rw [if_neg (by omega), next_raise_firstBad]

/-- Settles O41: the compatibility form fills V0 to Vx with copies of one byte. -/
theorem compatibilityLoadRepeatsOneByte : Obligations.CompatibilityLoadRepeatsOneByte := by
  intro x s
  have hsize : Config.memSize = 4096 := rfl
  refine ⟨fun b hb => ?_, fun ha => ?_⟩
  · refine ⟨fillV 0 (List.replicate (x.val + 1) b) s.v, ?_, fun k => ?_⟩
    · rw [State.loadRegsCompat, hb]
      rfl
    · rw [getElem_fillV_zero List.length_replicate]
      exact ite_congr rfl (fun hk => List.getD_replicate _ (Nat.lt_succ_of_le hk)) fun _ => rfl
  · rw [State.loadRegsCompat, Memory.read_eq_none.mpr (by omega)]
    rfl

/-! ### A store, then a load (R154, R155) -/

/-- Settles O42: the load reads, at I + k, the byte that the store put there, which is V[k]. -/
theorem storedRegistersLoadBack : Obligations.StoredRegistersLoadBack := by
  intro x s t w hm ha hstore hkept
  obtain ⟨m, hm', -, hin, -⟩ := (storeRegistersWritesTheRun x s hm).1 ha
  cases hm'.symm.trans hstore
  obtain ⟨w', hload, hw'⟩ := (loadRegistersReadsTheRun x { s with mem := m, v := w, pc := s.pc + 2 }).1 ha
  have hback : w' = s.v := by
    refine Vector.ext fun k hk => Option.some.inj ((hw' ⟨k, hk⟩).trans ?_)
    split
    · next hle => exact hin ⟨k, hk⟩ hle
    · next hlt => exact congrArg some (hkept ⟨k, hk⟩ (not_le.mp hlt))
  rw [hload, hback]

end Sys2Proof.Machine
end

section
/-! PROOFS. 44_display.md. The draw of the model is the loop over the buffer and the collision flag; with constant
coordinates the loop visits no pixel twice, so it is one parallel XOR, and doing that twice undoes it. -/

namespace Sys2Proof.Machine

/-! ### Clear (R171) -/

/-- Settles O44: the blank buffer has no lit pixel, and `dirty` makes it the output. -/
theorem clearBlanksTheDisplay : Obligations.ClearBlanksTheDisplay := by
  intro s
  exact ⟨Display.blank, _, rfl, rfl, Display.pixel_blank, rfl⟩

/-! ### The draw as a loop over the buffer and the flag (R173) -/

/-- The state in the middle of a draw: s with another buffer, and with the collision flag so far in VF. -/
def State.drawing (s : State) (p : Display × Bool) : State :=
  { s with disp := p.1, v := s.v.set 15 (flagByte p.2) }

/-- The loop over the buffer and the flag that a draw of `sprite` runs in s. -/
def State.blit (s : State) (x y : Reg) (sprite : List Byte) : Display × Bool :=
  blitRows (coordinate s x) (coordinate s y) 0 sprite (s.disp, false)

/-- The byte at I + k. -/
def State.spriteByte (s : State) (k : Nat) : Byte := Memory.byteAt s.mem (s.index.toNat + k)

/-- The n sprite bytes from I on. -/
def State.sprite (s : State) (n : Nat) : List Byte := (List.range n).map s.spriteByte

theorem flagByte_or (a b : Bool) : flagByte a ||| flagByte b = flagByte (a || b) := by
  cases a <;> cases b <;> rfl

section
variable (s : State) (x y : Reg) (p : Display × Bool)

theorem readV_drawing_vf : (s.drawing p).readV vf = flagByte p.2 := s.readV_writeV_same vf _

/-- A coordinate register during a draw: the live flag for VF, else what s holds. -/
theorem toNat_readV_drawing : ((s.drawing p).readV x).toNat = coordinate s x p.2 := by
  rw [coordinate]
  split
  · next hx => rw [hx, ← flagByte_toNat]; exact congrArg BitVec.toNat (readV_drawing_vf s p)
  · next hx => exact congrArg BitVec.toNat (s.readV_writeV_ne (flagByte p.2) (x := vf) (Ne.symm hx))

/-- One pixel of the model's draw is one pixel of the loop over the buffer and the flag. -/
theorem drawPixel_drawing (r : Fin 32) (b : Byte) (i : Nat) :
    drawPixel x r b (s.drawing p) i = s.drawing (blitPixel (coordinate s x) r b p i) := by
  rw [drawPixel, toNat_readV_drawing, readV_drawing_vf, flagByte_or, State.writeV]
  exact congrArg (fun v => { s with disp := (blitPixel (coordinate s x) r b p i).1, v := v }) (Vector.set_set ..)

theorem drawRow_drawing (r : Fin 32) (b : Byte) :
    drawRow x r b (s.drawing p) = s.drawing ((List.range 8).foldl (blitPixel (coordinate s x) r b) p) :=
  List.foldl_hom s.drawing fun p i => drawPixel_drawing s x p r b i

theorem drawRows_drawing (bs : List Byte) (k : Nat) :
    drawRows x y k bs (s.drawing p) = s.drawing (blitRows (coordinate s x) (coordinate s y) k bs p) := by
  induction bs generalizing k p with
  | nil => rfl
  | cons b bs ih => rw [drawRows, toNat_readV_drawing, drawRow_drawing, ih]; rfl

end

section
variable {s : State} {n : BitVec 4} (x y : Reg)

/-- DRW with its sprite inside memory. -/
theorem exec_drw_of_fits (h : n = 0 ∨ s.index.toNat + (n.toNat - 1) ≤ 0xFFF) :
    exec (.drw x y n) s = .next { s.drawing (s.blit x y (s.sprite n.toNat)) with dirty := true, pc := s.pc + 2 } := by
  have hsize : Config.memSize = 4096 := rfl
  have hfits : n.toNat = 0 ∨ s.index.toNat + n.toNat ≤ Config.memSize := by
    rcases h with rfl | h
    · exact .inl rfl
    · omega
  have hexec : exec (.drw x y n) s = execDrw x y n s := rfl
  have hstart : s.writeV vf 0 = s.drawing (s.disp, false) := rfl
  rw [hexec, execDrw_eq, if_pos hfits, hstart, drawRows_drawing]
  rfl

/-- DRW with a sprite byte above 0xFFF. -/
theorem exec_drw_of_not_fits (hn : n ≠ 0) (h : 0xFFF < s.index.toNat + (n.toNat - 1)) :
    exec (.drw x y n) s = .next { s with
      fault := some ⟨.memoryFault, if 0xFFF < s.index.toNat then s.index.toNat else 0x1000⟩ } := by
  have hsize : Config.memSize = 4096 := rfl
  have hn' : n.toNat ≠ 0 := fun e => hn (BitVec.eq_of_toNat_eq e)
  have hexec : exec (.drw x y n) s = execDrw x y n s := rfl
  rw [hexec, execDrw_eq, if_neg (by omega), next_raise_firstBad]

end

/-- Settles O45: the model's loops over the state and the loops over buffer and flag go side by side. -/
theorem drawIsThePixelLoop : Obligations.DrawIsThePixelLoop :=
  fun x y _ _ => ⟨exec_drw_of_fits x y, exec_drw_of_not_fits x y⟩

/-! ### With constant coordinates the draw is one parallel XOR (R173 case (a))

A pixel is named by its offset from the sprite's corner, with wrap-around. -/

/-- How far row r lies below the sprite's first row. -/
def rowOffset (vy : Nat) (r : Fin 32) : Nat := (r.val + 32 - vy % 32) % 32

/-- How far column c lies to the right of the sprite's first column. -/
def columnOffset (vx : Nat) (c : Fin 64) : Nat := (c.val + 64 - vx % 64) % 64

theorem eq_ofNat_iff_rowOffset {k : Nat} (hk : k < 32) (vy : Nat) (r : Fin 32) :
    r = Fin.ofNat 32 (vy + k) ↔ rowOffset vy r = k := by
  rw [Fin.ext_iff, Fin.val_ofNat, rowOffset]
  omega

theorem eq_ofNat_iff_columnOffset {j : Nat} (hj : j < 64) (vx : Nat) (c : Fin 64) :
    c = Fin.ofNat 64 (vx + j) ↔ columnOffset vx c = j := by
  rw [Fin.ext_iff, Fin.val_ofNat, columnOffset]
  omega

/-- The sprite bit on pixel (r, c) among the bits drawn so far: all of the rows before row k, and the bits of row k
before bit j. -/
def drawnBit (vx vy : Nat) (sprite : Nat → Byte) (k j : Nat) (r : Fin 32) (c : Fin 64) : Bool :=
  decide (rowOffset vy r < k ∨ rowOffset vy r = k ∧ columnOffset vx c < j) && decide (columnOffset vx c < 8) &&
    (sprite (rowOffset vy r)).getLsbD (7 - columnOffset vx c)

/-- Buffer and flag p come from buffer d by the parallel XOR with the bits m: each pixel is its old value xor its bit,
and the flag says whether a bit met a lit pixel. -/
def IsBlit (d : Display) (m : Fin 32 → Fin 64 → Bool) (p : Display × Bool) : Prop :=
  (∀ r c, Display.pixel p.1 r c = (Display.pixel d r c ^^ m r c)) ∧
    (p.2 = true ↔ ∃ r c, (Display.pixel d r c && m r c) = true)

/-- Before any bit is drawn the buffer is the old one and the flag is clear. -/
theorem IsBlit.start (d : Display) {m : Fin 32 → Fin 64 → Bool} (hm : ∀ r c, m r c = false) : IsBlit d m (d, false) := by
  simp [IsBlit, hm]

/-- One pixel that no bit has met yet takes its bit; this is where it counts that no pixel is visited twice. -/
theorem IsBlit.blitPixel {d : Display} {m m' : Fin 32 → Fin 64 → Bool} {p : Display × Bool} (h : IsBlit d m p)
    {vx i : Nat} {r : Fin 32} {b : Byte} (hm : m r (Fin.ofNat 64 (vx + i)) = false)
    (hm' : ∀ r' c', m' r' c' = if r' = r ∧ c' = Fin.ofNat 64 (vx + i) then b.getLsbD (7 - i) else m r' c') :
    IsBlit d m' (blitPixel (fun _ => vx) r b p i) := by
  obtain ⟨hpix, hflag⟩ := h
  have hold : Display.pixel p.1 r (Fin.ofNat 64 (vx + i)) = Display.pixel d r (Fin.ofNat 64 (vx + i)) := by
    rw [hpix, hm, Bool.xor_false]
  refine ⟨fun r' c' => ?_, ?_⟩
  · rw [Machine.blitPixel, Display.pixel_setPixel, hm', hold]
    split
    · next e => rw [e.1, e.2]
    · exact hpix r' c'
  · rw [Machine.blitPixel, hold, Bool.or_eq_true, hflag]
    constructor
    · rintro (⟨r', c', hlit⟩ | hlit)
      · refine ⟨r', c', ?_⟩
        rw [hm', if_neg]
        · exact hlit
        · intro e
          rw [e.1, e.2, hm, Bool.and_false] at hlit
          cases hlit
      · exact ⟨r, _, by rw [hm', if_pos ⟨rfl, rfl⟩, Bool.and_comm]; exact hlit⟩
    · rintro ⟨r', c', hlit⟩
      rw [hm'] at hlit
      split at hlit
      · next e => rw [e.1, e.2, Bool.and_comm] at hlit; exact .inr hlit
      · exact .inl ⟨r', c', hlit⟩

section
variable {d : Display} {vx vy : Nat} {sprite : Nat → Byte}

theorem drawnBit_zero (vx vy : Nat) (sprite : Nat → Byte) (r : Fin 32) (c : Fin 64) :
    drawnBit vx vy sprite 0 0 r c = false := by simp [drawnBit]

/-- The bits drawn after bit j of row k: that bit on its pixel, and the bits drawn before. -/
theorem drawnBit_succ {k j : Nat} (hk : k < 32) (hj : j < 8) (r : Fin 32) (c : Fin 64) :
    drawnBit vx vy sprite k (j + 1) r c =
      if r = Fin.ofNat 32 (vy + k) ∧ c = Fin.ofNat 64 (vx + j) then (sprite k).getLsbD (7 - j)
      else drawnBit vx vy sprite k j r c := by
  simp only [eq_ofNat_iff_rowOffset hk, eq_ofNat_iff_columnOffset (show j < 64 by omega)]
  split
  · next e => simp [drawnBit, e.1, e.2, hj]
  · next e =>
    have hsame : rowOffset vy r < k ∨ rowOffset vy r = k ∧ columnOffset vx c < j + 1 ↔
        rowOffset vy r < k ∨ rowOffset vy r = k ∧ columnOffset vx c < j := by omega
    rw [drawnBit, drawnBit, decide_eq_decide.mpr hsame]

/-- The pixel of bit j of row k is met by no bit before it. -/
theorem drawnBit_target {k j : Nat} (hk : k < 32) (hj : j < 8) :
    drawnBit vx vy sprite k j (Fin.ofNat 32 (vy + k)) (Fin.ofNat 64 (vx + j)) = false := by
  have hr := (eq_ofNat_iff_rowOffset hk vy _).mp rfl
  have hc := (eq_ofNat_iff_columnOffset (show j < 64 by omega) vx _).mp rfl
  rw [drawnBit, hr, hc]
  simp

/-- A row is finished after its eight bits. -/
theorem drawnBit_eight (k : Nat) : drawnBit vx vy sprite k 8 = drawnBit vx vy sprite (k + 1) 0 := by
  funext r c
  by_cases hc : columnOffset vx c < 8
  · have hsame : rowOffset vy r < k ∨ rowOffset vy r = k ∧ columnOffset vx c < 8 ↔
        rowOffset vy r < k + 1 ∨ rowOffset vy r = k + 1 ∧ columnOffset vx c < 0 := by omega
    rw [drawnBit, drawnBit, decide_eq_decide.mpr hsame]
  · simp [drawnBit, hc]

/-- The inner loop: the first j bits of row k. -/
theorem IsBlit.foldl_blitPixel {p : Display × Bool} {k j : Nat} (h : IsBlit d (drawnBit vx vy sprite k 0) p)
    (hk : k < 32) (hj : j ≤ 8) :
    IsBlit d (drawnBit vx vy sprite k j)
      ((List.range j).foldl (Machine.blitPixel (fun _ => vx) (Fin.ofNat 32 (vy + k)) (sprite k)) p) := by
  induction j with
  | zero => exact h
  | succ j ih =>
    rw [List.range_succ, List.foldl_append]
    exact (ih (by omega)).blitPixel (drawnBit_target hk hj) (drawnBit_succ hk hj)

/-- The outer loop: n rows from row k on, no more than the buffer has, so that none is visited twice. -/
theorem IsBlit.blitRows {p : Display × Bool} {k n : Nat} (h : IsBlit d (drawnBit vx vy sprite k 0) p)
    (hn : k + n ≤ 32) :
    IsBlit d (drawnBit vx vy sprite (k + n) 0)
      (blitRows (fun _ => vx) (fun _ => vy) k ((List.range' k n).map sprite) p) := by
  induction n generalizing k p with
  | zero => exact h
  | succ n ih =>
    rw [List.range'_succ, List.map_cons, Machine.blitRows, ← Nat.add_assoc, Nat.add_right_comm k n 1]
    have hrow := h.foldl_blitPixel (by omega) (j := 8) le_rfl
    rw [drawnBit_eight] at hrow
    exact ih hrow (by omega)

end

section
variable (s : State)

theorem coordinate_of_ne {x : Reg} (hx : x ≠ 15) : coordinate s x = fun _ => s.v[x.val].toNat :=
  funext fun _ => if_neg hx

/-- The bits of the whole sprite are those drawn when row n would start. -/
theorem spriteBit_eq_drawnBit (vx vy n : Nat) :
    spriteBit s vx vy n = drawnBit vx vy s.spriteByte n 0 := by
  funext r c
  have hrows : rowOffset vy r < n ∨ rowOffset vy r = n ∧ columnOffset vx c < 0 ↔ rowOffset vy r < n := by omega
  rw [drawnBit, decide_eq_decide.mpr hrows]
  rfl

/-- For x and y other than VF the loop is the parallel XOR with the sprite's bits. -/
theorem isBlit_blit {x y : Reg} (hx : x ≠ 15) (hy : y ≠ 15) {n : Nat} (hn : n ≤ 32) :
    IsBlit s.disp (spriteBit s s.v[x.val].toNat s.v[y.val].toNat n) (s.blit x y (s.sprite n)) := by
  have hstart := IsBlit.start s.disp (drawnBit_zero s.v[x.val].toNat s.v[y.val].toNat s.spriteByte)
  have hrows := hstart.blitRows (n := n) (by omega)
  rw [Nat.zero_add, ← spriteBit_eq_drawnBit, ← List.range_eq_range'] at hrows
  rw [State.blit, coordinate_of_ne s hx, coordinate_of_ne s hy]
  exact hrows

end

/-- Settles O46: DRW is the loop, and the loop is the parallel XOR. -/
theorem drawIsTheParallelBlit : Obligations.DrawIsTheParallelBlit := by
  intro x y n s hx hy hfits
  obtain ⟨hpix, hflag⟩ := isBlit_blit s hx hy (n := n.toNat) (by have := n.isLt; omega)
  refine ⟨_, exec_drw_of_fits x y hfits, hpix, ?_⟩
  rw [← if_congr hflag rfl rfl]
  rfl

/-! ### Two identical draws (R174) -/

/-- The bits of a sprite depend on memory and I alone. -/
theorem spriteBit_congr {s t : State} (hmem : t.mem = s.mem) (hindex : t.index = s.index) :
    spriteBit t = spriteBit s := by
  funext vx vy n r c
  rw [spriteBit, spriteBit, hmem, hindex]

/-- Settles O47: the first draw changes nothing the sprite's bits depend on, so the second is the XOR with the same
bits, and it meets a lit pixel exactly where the first lit one. -/
theorem drawingTwiceRestoresTheDisplay : Obligations.DrawingTwiceRestoresTheDisplay := by
  intro x y n s t u hx hy hfits hst htu
  have hframe := effect_of_exec hst
  have hmem : t.mem = s.mem := hframe.mem_eq nofun nofun
  have hindex : t.index = s.index := hframe.index_eq nofun nofun nofun
  have hvx : t.v[x.val] = s.v[x.val] := hframe.v_eq x (beq_false_of_ne hx)
  have hvy : t.v[y.val] = s.v[y.val] := hframe.v_eq y (beq_false_of_ne hy)
  obtain ⟨t', ht', htpix, -⟩ := drawIsTheParallelBlit x y n s hx hy hfits
  cases hst.symm.trans ht'
  obtain ⟨u', hu', hupix, hueq⟩ := drawIsTheParallelBlit x y n t hx hy (hindex ▸ hfits)
  cases htu.symm.trans hu'
  rw [spriteBit_congr hmem hindex, hvx, hvy] at hupix hueq
  refine ⟨Display.ext_pixel fun r c => ?_, ?_⟩
  · rw [hupix, htpix, Bool.xor_assoc, Bool.xor_self, Bool.xor_false]
  · have hvf := (congrArg (fun w : State => w.v[15]) hueq).trans (Vector.getElem_set_self ..)
    have hlit : ∀ a b : Bool, ((a ^^ b) && b) = true ↔ a = false ∧ (a ^^ b) = true := by decide
    rw [hvf, Ne.ite_eq_left_iff (by decide)]
    exact exists_congr fun r => exists_congr fun c => by rw [htpix, hlit]

end Sys2Proof.Machine
end

section
/-! PROOFS. 45_keys_timers.md. The timer registers and the key tests, the timers over a tick, and the wait for a key
from the LD Vx, K that enters it to the key that ends it. -/

namespace Sys2Proof.Machine

/-! ### Key tests and timer registers (R186 to R188, R191, R192) -/

/-- Settles O49: a key test is a skip on the flag of the key V[x], or on its negation, or the fault. -/
theorem keyTestsSkipOnTheirKey : Obligations.KeyTestsSkipOnTheirKey := by
  intro x s
  refine ⟨fun down _ hdown => ?_, fun hx => execSkp_of_ge hx⟩
  obtain ⟨hx, rfl⟩ := Vector.getElem?_eq_some_iff.mp hdown
  obtain ⟨hskp, hsknp⟩ := execSkp_of_lt (s := s) (x := x) hx
  constructor
  · exact hskp.trans (congrArg _ (s.skipIf_eq Iff.rfl))
  · rw [← ite_not]
    exact hsknp.trans (congrArg _ (s.skipIf_eq (by simp [State.readV])))

/-- Settles O50: LD Vx, DT is one register write; the other two are record updates, PC written last. -/
theorem timerRegistersTransfer : Obligations.TimerRegistersTransfer :=
  fun x s => ⟨next_writeV_flow s x s.dt, rfl, rfl⟩

/-! ### The timers over a tick (R185) -/

theorem waitMachine_timers (s : State) : s.waitMachine.dt = s.dt ∧ s.waitMachine.st = s.st := by
  rw [State.waitMachine_eq]
  cases firstKey s.keys <;> exact ⟨rfl, rfl⟩

/-- An unfaulted tick counts both timers down at its start; after it only an executed instruction can write one. -/
theorem timers_of_tick {inp : TickInput} {s t : State} (h : tick inp s = .next t) (hs : s.safe) :
    (t.dt = tickDown s.dt ∧ t.st = tickDown s.st) ∨
      s.mode = .running ∧
        ∃ op, Memory.fetch16 s.mem s.pc.toNat = some op ∧ Effect (s.begin inp) (decode op) t := by
  rcases tick_cases h with ⟨hf, -⟩ | ⟨-, -, rfl⟩ | ⟨-, -, -, rfl⟩ | ⟨-, hr, -, op, hop, hx⟩
  · exact absurd hs hf
  · exact .inl (waitMachine_timers (s.begin inp))
  · exact .inl ⟨rfl, rfl⟩
  · exact .inr ⟨hr, op, hop, effect_of_exec hx⟩

/-- Settles O48: a faulted machine is frozen; in any other tick the executed instruction, if there is one, leaves a
timer as the tick's start counted it down, unless it is LD DT or LD ST. -/
theorem timersCountDownEveryTick : Obligations.TimersCountDownEveryTick := by
  intro inp s t h
  refine ⟨fun hs => ?_, fun hs hi => ?_, fun hs hi => ?_⟩
  · cases (faultedMachineIsFrozen inp s hs).1.symm.trans h
    exact ⟨rfl, rfl⟩
  · rw [← tickDown_toNat]
    rcases timers_of_tick h hs with ⟨hdt, -⟩ | ⟨hr, op, hop, he⟩
    · exact congrArg _ hdt
    · exact congrArg _ (he.dt_eq fun x => hi hr op x hop)
  · rw [← tickDown_toNat]
    rcases timers_of_tick h hs with ⟨-, hst⟩ | ⟨hr, op, hop, he⟩
    · exact congrArg _ hst
    · exact congrArg _ (he.st_eq fun x => hi hr op x hop)

/-! ### The wait for a key (R189, R190, R195) -/

/-- Settles O51: the meaning is this record update, with PC held. -/
theorem waitForKeyEntersTheWait : Obligations.WaitForKeyEntersTheWait :=
  fun _ _ => rfl

/-- Settles O52: the wait machine looks for the first key among those the tick's start latched. -/
theorem waitEndsOnTheLowestKey : Obligations.WaitEndsOnTheLowestKey := by
  intro inp s hs hw
  rw [tick_of_waiting hs hw, State.waitMachine_eq, State.begin_keys]
  constructor
  · intro hup
    rw [firstKey_eq_none.mpr hup]
  · intro k hdown hlower
    rw [firstKey_eq_some.mpr ⟨hdown, hlower⟩]
    rfl

/-- A tick that answers a state, then the rest. -/
theorem ticks_cons {inp : TickInput} {s t : State} (h : tick inp s = .next t) (rest : List TickInput) :
    ticks (inp :: rest) s = ticks rest t := by
  rw [ticks, h]

/-- t is s with key k delivered to V[x] in n ticks, the last with the inputs `last`: the outcome of a wait (R195). -/
def KeyDelivered (x k : Reg) (last : TickInput) (n : Nat) (s t : State) : Prop :=
  t = { s with
    v := s.v.set x.val (BitVec.ofNat 8 k.val), pc := s.pc + 2, mode := .running, waitReg := x
    dt := t.dt, st := t.st, keys := last.keys, rand := last.rand
    dirty := false, unknownOpcode := none, loadable := false, hostTick := t.hostTick } ∧
  t.dt.toNat = s.dt.toNat - n ∧ t.st.toNat = s.st.toNat - n

section
variable {x k : Reg} {last : TickInput} {n : Nat} {s t : State}

/-- A tick before the delivery that starts, and at most enters the wait, is one tick more to the same outcome. -/
theorem KeyDelivered.of_begin {inp : TickInput} {m : Mode} {y : Reg}
    (h : KeyDelivered x k last n { s.begin inp with mode := m, waitReg := y } t) :
    KeyDelivered x k last (n + 1) s t := by
  obtain ⟨ht, hdt, hst⟩ := h
  have hdt' : t.dt.toNat = (tickDown s.dt).toNat - n := hdt
  have hst' : t.st.toNat = (tickDown s.st).toNat - n := hst
  rw [tickDown_toNat] at hdt' hst'
  exact ⟨ht, by omega, by omega⟩

/-- The part of the wait in which the machine waits: any number of ticks with no key down, then one with lowest
key k. -/
theorem ticks_of_waiting {idle : List TickInput} (hs : s.safe) (hw : s.mode = .waitingForKey)
    (hidle : ∀ inp ∈ idle, ∀ j : Reg, inp.keys[j.val] = false) (hk : last.keys[k.val] = true)
    (hlower : ∀ j : Reg, j < k → last.keys[j.val] = false) :
    ∃ t, ticks (idle ++ [last]) s = .next t ∧ KeyDelivered s.waitReg k last (idle.length + 1) s t := by
  induction idle generalizing s with
  | nil =>
    exact ⟨_, ticks_cons ((waitEndsOnTheLowestKey last s hs hw).2 k hk hlower) [],
      rfl, tickDown_toNat s.dt, tickDown_toNat s.st⟩
  | cons inp idle ih =>
    obtain ⟨hup, hidle⟩ := List.forall_mem_cons.mp hidle
    obtain ⟨t, ht, hdelivered⟩ := ih (s := s.begin inp) hs hw hidle
    exact ⟨t, (ticks_cons ((waitEndsOnTheLowestKey inp s hs hw).1 hup) _).trans ht, hdelivered.of_begin⟩

end

/-- Settles O53: the first tick enters the wait on LD Vx, K, and the ticks of the waiting machine deliver the key. -/
theorem waitRoundTripDeliversTheKey : Obligations.WaitRoundTripDeliversTheKey := by
  intro s op x k first last idle hs hr hop hdec hidle hk hlower
  have hfirst : tick first s = .next { s.begin first with mode := .waitingForKey, waitReg := x } := by
    rw [tick_of_fetch hs hr hop, hdec]
    exact waitForKeyEntersTheWait x _
  obtain ⟨t, ht, hdelivered⟩ := ticks_of_waiting
    (s := { s.begin first with mode := .waitingForKey, waitReg := x }) hs rfl hidle hk hlower
  obtain ⟨heq, hdt, hst⟩ := hdelivered.of_begin
  rw [← hr] at heq
  exact ⟨t, (ticks_cons hfirst _).trans ht, heq, hdt, hst⟩

end Sys2Proof.Machine
end

section
/-! PROOFS. 60_exceptions.md. Each instruction raises the fault that the table of R201 gives it and no other, and a tick
that faults has made its start and written the fault register. -/

namespace Sys2Proof.Machine

/-! ### The fault table (R201 to R204, R206) -/

/-- Executing `i` in `s` raises what the table gives it, before anything else changes, or completes without a fault. -/
def RaisesItsFault (i : Instr) (s : State) : Prop :=
  (∀ f, faultOf i s = some f → exec i s = .next { s with fault := some f }) ∧
    (faultOf i s = none → ∃ t, exec i s = .next t ∧ t.fault = s.fault)

/-- The address in the info is the model's `firstBad`, for a run of bytes that memory does not hold. -/
theorem badAddress_eq (a n : Nat) :
    badAddress a n = if n = 0 ∨ a + n ≤ Config.memSize then none else some (firstBad a) := by
  have hsize : Config.memSize = 4096 := rfl
  rw [badAddress, firstBad_eq, ← ite_not]
  exact if_congr (by omega) rfl rfl

namespace RaisesItsFault

variable {i : Instr} {s t : State}

theorem of_completes (hf : faultOf i s = none) (h : exec i s = .next t) (ht : t.fault = s.fault) :
    RaisesItsFault i s := by
  refine ⟨fun f hsome => ?_, fun _ => ⟨t, h, ht⟩⟩
  cases hf.symm.trans hsome

theorem of_raises {k : FaultKind} {n : Nat} (hf : faultOf i s = some ⟨k, n⟩) (h : exec i s = .next (s.raise k n)) :
    RaisesItsFault i s := by
  refine ⟨fun f hsome => ?_, fun hnone => ?_⟩
  · cases hf.symm.trans hsome
    exact h
  · cases hf.symm.trans hnone

/-- A transfer of n bytes at I: it completes when memory holds them all (`p`), else it raises MemoryFault (R202). -/
theorem of_transfer {n : Nat} {p : Prop} [Decidable p]
    (hf : faultOf i s = (badAddress s.index.toNat n).map (⟨.memoryFault, ·⟩))
    (h : exec i s = if p then .next t else .next (s.raise .memoryFault (firstBad s.index.toNat)))
    (hp : p ↔ n = 0 ∨ s.index.toNat + n ≤ Config.memSize) (ht : t.fault = s.fault) : RaisesItsFault i s := by
  rw [badAddress_eq] at hf
  by_cases hfits : p
  · rw [if_pos (hp.mp hfits)] at hf
    exact of_completes hf (h.trans (if_pos hfits)) ht
  · rw [if_neg (mt hp.mpr hfits)] at hf
    exact of_raises hf (h.trans (if_neg hfits))

theorem call (nnn : BitVec 12) : RaisesItsFault (.call nnn) s := by
  by_cases hroom : s.sp.val < 16
  · exact of_completes (if_neg (by omega)) (execCall_of_lt hroom nnn) rfl
  · exact of_raises (if_pos (by omega)) (execCall_of_full hroom nnn)

theorem ret : RaisesItsFault .ret s := by
  by_cases hpos : 0 < s.sp.val
  · exact of_completes (if_neg (by omega)) (execRet_of_pos hpos) rfl
  · exact of_raises (if_pos (by omega)) (execRet_of_empty hpos)

theorem skp_sknp (x : Reg) : RaisesItsFault (.skp x) s ∧ RaisesItsFault (.sknp x) s := by
  rcases Nat.lt_or_ge (s.readV x).toNat 16 with hx | hx
  · have hf : ¬ 15 < s.v[x.val].toNat := Nat.not_lt.mpr (Nat.le_of_lt_succ hx)
    obtain ⟨hskp, hsknp⟩ := execSkp_of_lt hx
    exact ⟨of_completes (if_neg hf) hskp (s.skipIf_fault _), of_completes (if_neg hf) hsknp (s.skipIf_fault _)⟩
  · obtain ⟨hskp, hsknp⟩ := execSkp_of_ge hx
    exact ⟨of_raises (if_pos hx) hskp, of_raises (if_pos hx) hsknp⟩

/-- A draw that fits leaves the fault register alone, whatever it does to the buffer and the registers. -/
theorem drw (x y : Reg) (n : BitVec 4) : RaisesItsFault (.drw x y n) s :=
  of_transfer rfl (execDrw_eq x y n s) Iff.rfl (by rw [State.flow_fault, State.markDirty_fault, drawRows_frame]; rfl)

theorem ldBVx (x : Reg) : RaisesItsFault (.ldBVx x) s :=
  of_transfer rfl (execLdBVx_eq x s) (by omega) rfl

theorem ldMemVx (x : Reg) : RaisesItsFault (.ldMemVx x) s :=
  of_transfer rfl (execLdMemVx_eq x s) (by omega) rfl

theorem ldVxMem (x : Reg) : RaisesItsFault (.ldVxMem x) s :=
  of_transfer rfl ((execLdVxMem_eq x s).trans (s.loadRegs_eq x)) (by omega) rfl

end RaisesItsFault

/-- Settles O20: the stack by SP, the key tests by V[x], the transfers at I by the bytes that memory holds; no other
instruction can fault. -/
theorem instructionsRaiseExactlyTheirFaults : Obligations.InstructionsRaiseExactlyTheirFaults := by
  intro i s
  change RaisesItsFault i s
  cases i with
  | call nnn => exact .call nnn
  | ret => exact .ret
  | skp x => exact (RaisesItsFault.skp_sknp x).1
  | sknp x => exact (RaisesItsFault.skp_sknp x).2
  | drw x y n => exact .drw x y n
  | ldBVx x => exact .ldBVx x
  | ldMemVx x => exact .ldMemVx x
  | ldVxMem x => exact .ldVxMem x
  | seImm | sneImm | seReg | sneReg => exact .of_completes rfl rfl (s.skipIf_fault _)
  | _ => exact .of_completes rfl rfl rfl

/-! ### Precision (R205, R209) -/

/-- Settles O21: the fetch that faults writes the fault register on the started tick, and so does an instruction. -/
theorem faultsArePrecise : Obligations.FaultsArePrecise :=
  fun _ _ _ hs h ht => eq_begin_of_faulting_tick h hs ht

end Sys2Proof.Machine
end

section
/-! PROOFS. 70_reset_and_hazards.md. The host's load: the run it stores, that it keeps the invariant, and that a tick
uses it up; then the finished states of D25, which no tick leaves. -/

namespace Sys2Proof.Machine

/-! ### Load (R236, R237, D16) -/

theorem length_keptBytes (program : List Byte) : (keptBytes program).length = min 3584 program.length :=
  List.length_take

/-- What `load` keeps of a program ends inside memory. -/
theorem progBase_add_length_keptBytes_le (program : List Byte) :
    Config.progBase + (keptBytes program).length ≤ Config.memSize := by
  have hbase : Config.progBase = 512 := rfl
  have hsize : Config.memSize = 4096 := rfl
  have hlen := length_keptBytes program
  omega

/-- Memory in canonical form, with the load used up, is all that the invariant needs of a load. -/
theorem State.Inv.of_loaded {s : State} (h : s.Inv) {m : Memory} (hm : Memory.wf m = true) :
    ({ s with mem := m, loadable := false } : State).Inv where
  memWf := hm
  pcBound := h.pcBound
  stackBound := h.stackBound
  waitingPc := h.waitingPc
  faulted hs := by
    obtain ⟨hmode, hdirty, hunknown, -⟩ := h.faulted hs
    exact ⟨hmode, hdirty, hunknown, rfl⟩

theorem waitMachine_loadable (s : State) : s.waitMachine.loadable = s.loadable := by
  rw [State.waitMachine_eq]
  cases firstKey s.keys <;> rfl

/-- The start of an unfaulted tick uses the load up, and nothing later in the tick makes it legal again. -/
theorem loadable_of_tick {inp : TickInput} {s t : State} (h : tick inp s = .next t) (hs : s.safe) :
    t.loadable = false := by
  rcases tick_cases h with ⟨hf, -⟩ | ⟨-, -, rfl⟩ | ⟨-, -, -, rfl⟩ | ⟨-, -, -, op, -, hx⟩
  · exact absurd hs hf
  · exact waitMachine_loadable (s.begin inp)
  · rfl
  · obtain ⟨-, -, hload, -⟩ := (effect_of_exec hx).inputs_eq
    exact hload

/-- Settles O9: a legal load stores one run, the kept bytes from 0x200 on, and that run fits in memory. -/
theorem loadCopiesTheProgramOnce : Obligations.LoadCopiesTheProgramOnce := by
  intro s program hinv
  have hfit := progBase_add_length_keptBytes_le program
  have hlen := length_keptBytes program
  refine ⟨fun hload => ?_, fun hload => ?_, fun inp t hs h => loadable_of_tick h hs⟩
  · refine ⟨Memory.putRun s.mem Config.progBase (keptBytes program), if_pos hload,
      hinv.of_loaded (Memory.wf_putRun hfit hinv.memWf), fun k hk hkp => ?_, fun a ha => ?_⟩
    · exact (Memory.read_putRun_add hinv.memWf hfit (by omega)).trans (List.getElem?_take_of_lt hk)
    · have hbase : Config.progBase = 512 := rfl
      exact Memory.read_putRun_of_outside hinv.memWf hfit (by omega)
  · exact if_neg (hload ▸ Bool.false_ne_true)

/-! ### Finished states (R242, D25) -/

/-- A jump to the address PC already holds changes nothing. -/
theorem exec_jp_of_self {nnn : BitVec 12} {s : State} (h : nnn.toNat = s.pc.toNat) : exec (.jp nnn) s = .next s := by
  calc exec (.jp nnn) s
    _ = .next { s with pc := BitVec.ofNat 16 nnn.toNat } := jumpGoesToItsAddress nnn s
    _ = .next s := by rw [h, BitVec.ofNat_toNat, BitVec.setWidth_eq]

/-- The start of a tick changes nothing that makes a state finished. -/
theorem finished_begin {s : State} (inp : TickInput) (h : s.finished) : (s.begin inp).finished := h

/-- Settles O18: the tick fetches the jump, and the jump leaves the started state as it is. -/
theorem finishedStatesStayFinished : Obligations.FinishedStatesStayFinished := by
  intro inp s h
  refine ⟨?_, finished_begin inp h⟩
  obtain ⟨op, nnn, hop, hjp, hself, hrun, hsafe⟩ := h
  rw [tick_of_running hsafe hrun, State.fetchExec_eq, State.begin_mem, State.begin_pc, hop]
  exact (congrArg (exec · (s.begin inp)) hjp).trans (exec_jp_of_self hself)

end Sys2Proof.Machine
end
